-- ==== Sys2Proof/Word.lean ====
section
/-! DEFINITION. The word types of the CHIP-8 core (spec/00_scope.md rules R6, R9, R10; spec/30_encoding.md rule R71). -/

namespace Sys2Proof

/-- One byte: a memory byte, a general register, a timer (R6, `XLEN` = 8). -/
abbrev Byte := BitVec 8

/-- Sixteen bits: an instruction word, `pc`, `I`, a stack entry (R6, `ALEN` = 16). -/
abbrev Word := BitVec 16

/-- The address immediate `nnn` of an instruction word (R71, 12 bits). -/
abbrev Addr := BitVec 12

/-- A four-bit field of an instruction word (R71). -/
abbrev Nibble := BitVec 4

/-- The number of one of the sixteen general registers `V[0x0]` to `V[0xF]` (R21). -/
abbrev Reg := Fin 16

/-- The number of the flag register `V[0xF]` (R22). -/
abbrev flagReg : Reg := 15

end Sys2Proof
end

