-- ==== Sys2Proof/Syntax.lean ====
section
/-! DEFINITION. The instruction set: one constructor per row of spec/opcode_table.json, in the table's order
(spec/30_encoding.md rules R74, R76). -/

namespace Sys2Proof

/-- The 34 instructions, each with exactly the fields of its format (R72, R74): `x`, `y` register numbers, `nn` the byte
immediate, `nnn` the address immediate, `n` the small immediate. Every value of a field is legal (R73), and a value out of
a field's range cannot be written. The words that are none of these are `Op.unknown` of Sys2Proof/Decode.lean. -/
inductive Instr where
  /-- 00E0, clear the frame buffer (R170). -/
  | cls
  /-- 00EE, return from a call (R121). -/
  | ret
  /-- 1nnn, jump (R120). -/
  | jp (nnn : Addr)
  /-- 2nnn, call (R122). -/
  | call (nnn : Addr)
  /-- 3xnn, skip if `V[x]` = `nn` (R124). -/
  | seImm (x : Reg) (nn : Byte)
  /-- 4xnn, skip if `V[x]` ≠ `nn` (R125). -/
  | sneImm (x : Reg) (nn : Byte)
  /-- 5xy0, skip if `V[x]` = `V[y]` (R126). -/
  | seReg (x y : Reg)
  /-- 6xnn, load an immediate (R140). -/
  | ldImm (x : Reg) (nn : Byte)
  /-- 7xnn, add an immediate, no flag (R141). -/
  | addImm (x : Reg) (nn : Byte)
  /-- 8xy0, copy a register (R142). -/
  | ldReg (x y : Reg)
  /-- 8xy1, bitwise or (R143). -/
  | or (x y : Reg)
  /-- 8xy2, bitwise and (R144). -/
  | and (x y : Reg)
  /-- 8xy3, bitwise exclusive or (R145). -/
  | xor (x y : Reg)
  /-- 8xy4, add with carry flag (R146). -/
  | addReg (x y : Reg)
  /-- 8xy5, subtract with no-borrow flag (R147). -/
  | sub (x y : Reg)
  /-- 8xy6, shift `V[x]` right; `y` is carried and ignored (R149). -/
  | shr (x y : Reg)
  /-- 8xy7, subtract the other way round (R148). -/
  | subn (x y : Reg)
  /-- 8xyE, shift `V[x]` left; `y` is carried and ignored (R151). -/
  | shl (x y : Reg)
  /-- 9xy0, skip if `V[x]` ≠ `V[y]` (R127). -/
  | sneReg (x y : Reg)
  /-- Annn, load the index register (R160). -/
  | ldI (nnn : Addr)
  /-- Bnnn, jump to `nnn` + `V[0]` (R123). -/
  | jpV0 (nnn : Addr)
  /-- Cxnn, a random byte and `nn` (R153). -/
  | rnd (x : Reg) (nn : Byte)
  /-- Dxyn, draw an `n`-row sprite (R171). -/
  | drw (x y : Reg) (n : Nibble)
  /-- Ex9E, skip if the key `V[x]` is pressed (R180). -/
  | skp (x : Reg)
  /-- ExA1, skip if the key `V[x]` is not pressed (R181). -/
  | sknp (x : Reg)
  /-- Fx07, read the delay timer (R183). -/
  | ldVxDt (x : Reg)
  /-- Fx0A, wait for a key (R182). -/
  | ldVxK (x : Reg)
  /-- Fx15, set the delay timer (R184). -/
  | ldDtVx (x : Reg)
  /-- Fx18, set the sound timer (R185). -/
  | ldStVx (x : Reg)
  /-- Fx1E, add to the index register (R161). -/
  | addI (x : Reg)
  /-- Fx29, index of a font glyph (R162). -/
  | ldF (x : Reg)
  /-- Fx33, store three decimal digits (R163). -/
  | ldB (x : Reg)
  /-- Fx55, store `V[0]` to `V[x]` (R164). -/
  | stRegs (x : Reg)
  /-- Fx65, load `V[0]` to `V[x]` (R165). -/
  | ldRegs (x : Reg)
deriving DecidableEq, Repr

/-- The instruction's op-kind name, as spec/opcode_table.json spells it. -/
def Instr.mnemonic : Instr → String
  | .cls => "CLS"
  | .ret => "RET"
  | .jp _ => "JP"
  | .call _ => "CALL"
  | .seImm _ _ => "SE_IMM"
  | .sneImm _ _ => "SNE_IMM"
  | .seReg _ _ => "SE_REG"
  | .ldImm _ _ => "LD_IMM"
  | .addImm _ _ => "ADD_IMM"
  | .ldReg _ _ => "LD_REG"
  | .or _ _ => "OR"
  | .and _ _ => "AND"
  | .xor _ _ => "XOR"
  | .addReg _ _ => "ADD_REG"
  | .sub _ _ => "SUB"
  | .shr _ _ => "SHR"
  | .subn _ _ => "SUBN"
  | .shl _ _ => "SHL"
  | .sneReg _ _ => "SNE_REG"
  | .ldI _ => "LD_I"
  | .jpV0 _ => "JP_V0"
  | .rnd _ _ => "RND"
  | .drw _ _ _ => "DRW"
  | .skp _ => "SKP"
  | .sknp _ => "SKNP"
  | .ldVxDt _ => "LD_VX_DT"
  | .ldVxK _ => "LD_VX_K"
  | .ldDtVx _ => "LD_DT_VX"
  | .ldStVx _ => "LD_ST_VX"
  | .addI _ => "ADD_I"
  | .ldF _ => "LD_F"
  | .ldB _ => "LD_B"
  | .stRegs _ => "ST_REGS"
  | .ldRegs _ => "LD_REGS"

end Sys2Proof
end

