-- ==== Sys2Proof/Decode.lean ====
section
/-! DEFINITION. The instruction decoder and, after it, the encoder (spec/30_encoding.md rules R70 to R82). -/

namespace Sys2Proof

/-! ### The fields of a word (R71) -/

/-- `w[15:12]`, the opcode family. -/
def fieldFamily (w : Word) : Nibble := w.extractLsb 15 12

/-- `w[11:8]`, the register number `x`. -/
def fieldX (w : Word) : Nibble := w.extractLsb 11 8

/-- `w[7:4]`, the register number `y`. -/
def fieldY (w : Word) : Nibble := w.extractLsb 7 4

/-- `w[3:0]`, the small immediate `n`. -/
def fieldN (w : Word) : Nibble := w.extractLsb 3 0

/-- `w[7:0]`, the byte immediate `nn`. -/
def fieldNN (w : Word) : Byte := w.extractLsb 7 0

/-- `w[11:0]`, the address immediate `nnn`. -/
def fieldNNN (w : Word) : Addr := w.extractLsb 11 0

/-! ### The formats (R72) -/

/-- Format `A`: the family and `nnn`. -/
def formatA (family : Nibble) (nnn : Addr) : Word := family ++ nnn

/-- Formats `XI` and `X`: the family, `x`, and the low byte. -/
def formatXI (family x : Nibble) (nn : Byte) : Word := family ++ x ++ nn

/-- Formats `XY` and `XYN`: the family, `x`, `y`, and the low nibble. -/
def formatXY (family x y n : Nibble) : Word := family ++ x ++ y ++ n

/-- A register number as the four bits of its field. -/
def regBits (r : Reg) : Nibble := BitVec.ofFin r

/-- The register number that four bits name; every value is legal (R73). -/
def regOf (b : Nibble) : Reg := b.toFin

/-! ### The decoder (R74, R75) -/

/-- The decoder's result (R74): one of the 34 instructions, or `UNKNOWN(w)` with the whole word. -/
inductive Op where
  | known (i : Instr)
  | unknown (w : Word)
deriving DecidableEq, Repr

/-- Family 0x0: all sixteen bits are matched (R75, C3). -/
def decodeFamily0 (w : Word) : Op :=
  if w = 0x00E0#16 then .known .cls else if w = 0x00EE#16 then .known .ret else .unknown w

/-- Family 0x8: dispatch on the low nibble (R75). -/
def decodeFamily8 (w : Word) : Op :=
  let x := regOf (fieldX w)
  let y := regOf (fieldY w)
  match (fieldN w).toNat with
  | 0x0 => .known (.ldReg x y)
  | 0x1 => .known (.or x y)
  | 0x2 => .known (.and x y)
  | 0x3 => .known (.xor x y)
  | 0x4 => .known (.addReg x y)
  | 0x5 => .known (.sub x y)
  | 0x6 => .known (.shr x y)
  | 0x7 => .known (.subn x y)
  | 0xE => .known (.shl x y)
  | _ => .unknown w

/-- Family 0xE: dispatch on the low byte (R75). -/
def decodeFamilyE (w : Word) : Op :=
  let x := regOf (fieldX w)
  match (fieldNN w).toNat with
  | 0x9E => .known (.skp x)
  | 0xA1 => .known (.sknp x)
  | _ => .unknown w

/-- Family 0xF: dispatch on the low byte (R75). -/
def decodeFamilyF (w : Word) : Op :=
  let x := regOf (fieldX w)
  match (fieldNN w).toNat with
  | 0x07 => .known (.ldVxDt x)
  | 0x0A => .known (.ldVxK x)
  | 0x15 => .known (.ldDtVx x)
  | 0x18 => .known (.ldStVx x)
  | 0x1E => .known (.addI x)
  | 0x29 => .known (.ldF x)
  | 0x33 => .known (.ldB x)
  | 0x55 => .known (.stRegs x)
  | 0x65 => .known (.ldRegs x)
  | _ => .unknown w

/-- The decoder: total on the 65536 words and a function of the word alone (R70, R74, R75, R102). -/
def decode (w : Word) : Op :=
  let x := regOf (fieldX w)
  let y := regOf (fieldY w)
  let nn := fieldNN w
  let nnn := fieldNNN w
  match (fieldFamily w).toNat with
  | 0x0 => decodeFamily0 w
  | 0x1 => .known (.jp nnn)
  | 0x2 => .known (.call nnn)
  | 0x3 => .known (.seImm x nn)
  | 0x4 => .known (.sneImm x nn)
  | 0x5 => if fieldN w = 0x0#4 then .known (.seReg x y) else .unknown w
  | 0x6 => .known (.ldImm x nn)
  | 0x7 => .known (.addImm x nn)
  | 0x8 => decodeFamily8 w
  | 0x9 => if fieldN w = 0x0#4 then .known (.sneReg x y) else .unknown w
  | 0xA => .known (.ldI nnn)
  | 0xB => .known (.jpV0 nnn)
  | 0xC => .known (.rnd x nn)
  | 0xD => .known (.drw x y (fieldN w))
  | 0xE => decodeFamilyE w
  | 0xF => decodeFamilyF w
  | _ => .unknown w -- no four-bit family is above 0xF

/-- The word of two bytes in memory order: the byte at the lower address holds `w[15:8]` (R54). -/
def wordOfBytes (first second : Byte) : Word := first ++ second

/-- `w[15:8]`, the byte of `w` at the lower address (R54). -/
def firstByte (w : Word) : Byte := w.extractLsb 15 8

/-- `w[7:0]`, the byte of `w` at the higher address (R54). -/
def secondByte (w : Word) : Byte := w.extractLsb 7 0

/-- Why a sequence of bytes begins with no instruction. -/
inductive ByteReject where
  /-- The whole word is there and no row of the opcode map covers it (R77). -/
  | unknownWord (w : Word)
  /-- Fewer than the two bytes of an instruction are there (R70). -/
  | tooFewBytes (have_ : Nat)
deriving DecidableEq, Repr

/-- The decoder on bytes in memory order: total, the instruction with the bytes after it or the reject's name. -/
def decodeBytes : List Byte → Except ByteReject (Instr × List Byte)
  | [] => .error (.tooFewBytes 0)
  | [_] => .error (.tooFewBytes 1)
  | b0 :: b1 :: rest =>
    match decode (wordOfBytes b0 b1) with
    | .known i => .ok (i, rest)
    | .unknown w => .error (.unknownWord w)

/-! ### The encoder (R82) -/

/-- The word of an instruction: its row's fixed bits with its fields at their places (R72, R76, R82). -/
def encode : Instr → Word
  | .cls => 0x00E0#16
  | .ret => 0x00EE#16
  | .jp nnn => formatA 0x1#4 nnn
  | .call nnn => formatA 0x2#4 nnn
  | .seImm x nn => formatXI 0x3#4 (regBits x) nn
  | .sneImm x nn => formatXI 0x4#4 (regBits x) nn
  | .seReg x y => formatXY 0x5#4 (regBits x) (regBits y) 0x0#4
  | .ldImm x nn => formatXI 0x6#4 (regBits x) nn
  | .addImm x nn => formatXI 0x7#4 (regBits x) nn
  | .ldReg x y => formatXY 0x8#4 (regBits x) (regBits y) 0x0#4
  | .or x y => formatXY 0x8#4 (regBits x) (regBits y) 0x1#4
  | .and x y => formatXY 0x8#4 (regBits x) (regBits y) 0x2#4
  | .xor x y => formatXY 0x8#4 (regBits x) (regBits y) 0x3#4
  | .addReg x y => formatXY 0x8#4 (regBits x) (regBits y) 0x4#4
  | .sub x y => formatXY 0x8#4 (regBits x) (regBits y) 0x5#4
  | .shr x y => formatXY 0x8#4 (regBits x) (regBits y) 0x6#4
  | .subn x y => formatXY 0x8#4 (regBits x) (regBits y) 0x7#4
  | .shl x y => formatXY 0x8#4 (regBits x) (regBits y) 0xE#4
  | .sneReg x y => formatXY 0x9#4 (regBits x) (regBits y) 0x0#4
  | .ldI nnn => formatA 0xA#4 nnn
  | .jpV0 nnn => formatA 0xB#4 nnn
  | .rnd x nn => formatXI 0xC#4 (regBits x) nn
  | .drw x y n => formatXY 0xD#4 (regBits x) (regBits y) n
  | .skp x => formatXI 0xE#4 (regBits x) 0x9E#8
  | .sknp x => formatXI 0xE#4 (regBits x) 0xA1#8
  | .ldVxDt x => formatXI 0xF#4 (regBits x) 0x07#8
  | .ldVxK x => formatXI 0xF#4 (regBits x) 0x0A#8
  | .ldDtVx x => formatXI 0xF#4 (regBits x) 0x15#8
  | .ldStVx x => formatXI 0xF#4 (regBits x) 0x18#8
  | .addI x => formatXI 0xF#4 (regBits x) 0x1E#8
  | .ldF x => formatXI 0xF#4 (regBits x) 0x29#8
  | .ldB x => formatXI 0xF#4 (regBits x) 0x33#8
  | .stRegs x => formatXI 0xF#4 (regBits x) 0x55#8
  | .ldRegs x => formatXI 0xF#4 (regBits x) 0x65#8

/-- The two bytes of an instruction in memory order (R54). -/
def encodeBytes (i : Instr) : List Byte := [firstByte (encode i), secondByte (encode i)]

/-- The instruction that the decoder reads from an instruction whose bits are `w`, numbered as
spec/opcode_table.json numbers them, every bit at or above `nbits` being 0; `none` where the decoder refuses. -/
def decodeTableWord (nbits w : Nat) : Option Instr :=
  let word : Word := BitVec.ofNat 16 (w % 2 ^ nbits)
  match decodeBytes [firstByte word, secondByte word] with
  | .ok (i, _) => some i
  | .error _ => none

end Sys2Proof
end

