-- ==== Sys2Proof/Config.lean ====
section
/-! DEFINITION. What is fixed for one machine (spec/00_scope.md rule R7) and the free values of the model (rule R8). -/

namespace Sys2Proof

/-- The parameters a model takes as arguments (R7). They are fixed for a machine: `Machine.State` carries them in its
field `cfg`, which no step and no move of the host changes. Their defaults are `Machine.defaultConfig`'s. -/
structure Config where
  /-- `QUIRK_FX1E_FLAG`: whether `ADD_I` writes `V[0xF]` on overflow past 0xFFF (R161). -/
  quirkFx1eFlag : Bool
  /-- `FONT_BASE`: the address of the first byte of the font (R41, R162). -/
  fontBase : Nat
  /-- `FONT`: the 80 glyph bytes, five for each of the sixteen digits, top row first (R41). -/
  font : Vector Byte 80
deriving DecidableEq, Repr

/-- The "random byte" that the host supplies to the `k`-th draw of `RND` (R8, R153): a FREE VALUE, under no law
(assumption log 1). It has no body, so nothing can be proved of it. -/
opaque Config.randByte : Nat → Byte

/-- The word recorded by a failed fetch at a `pc` above 0xFFF, where not even the first byte of the word exists: R101
gives the record only for `pc` = 0xFFF. A FREE VALUE (assumption log 2); no run reaches such a `pc` (R37). -/
opaque Config.wordBeyondMemory : Word → Word

end Sys2Proof
end

