-- ==== Sys2Proof/Machine/Defaults.lean ====
section
/-! DEFINITION. The default parameters (spec/00_scope.md rule R7, spec/10_state.md rule R41). -/

namespace Sys2Proof.Machine

/-- The default `FONT`: glyphs 0 to F, five bytes each, top row first (R41). PRESUMED: R41 marks the bit patterns as
general knowledge, not the source's (D7; assumption log 10). -/
def defaultFont : Vector Byte 80 :=
  #v[0xF0, 0x90, 0x90, 0x90, 0xF0, -- 0
     0x20, 0x60, 0x20, 0x20, 0x70, -- 1
     0xF0, 0x10, 0xF0, 0x80, 0xF0, -- 2
     0xF0, 0x10, 0xF0, 0x10, 0xF0, -- 3
     0x90, 0x90, 0xF0, 0x10, 0x10, -- 4
     0xF0, 0x80, 0xF0, 0x10, 0xF0, -- 5
     0xF0, 0x80, 0xF0, 0x90, 0xF0, -- 6
     0xF0, 0x10, 0x20, 0x40, 0x40, -- 7
     0xF0, 0x90, 0xF0, 0x90, 0xF0, -- 8
     0xF0, 0x90, 0xF0, 0x10, 0xF0, -- 9
     0xF0, 0x90, 0xF0, 0x90, 0x90, -- A
     0xE0, 0x90, 0xE0, 0x90, 0xE0, -- B
     0xF0, 0x80, 0x80, 0x80, 0xF0, -- C
     0xE0, 0x90, 0x90, 0x90, 0xE0, -- D
     0xF0, 0x80, 0xF0, 0x80, 0xF0, -- E
     0xF0, 0x80, 0xF0, 0x80, 0x80] -- F

/-- The defaults of R7: no flag side effect of `ADD_I`, the font at 0x050, the font of R41. -/
def defaultConfig : Config := { quirkFx1eFlag := false, fontBase := 0x050, font := defaultFont }

end Sys2Proof.Machine
end

