-- ==== Sys2Proof/Machine/State.lean ====
section
/-! DEFINITION. The machine state (spec/10_state.md), the reasons a step can stop, and the state after reset. -/

namespace Sys2Proof.Machine

/-- Memory as the cells whose byte differs from what an unlisted address reads as (`Memory.unlisted`), addresses strictly
rising (`Memory.wf`); R20, R50, assumption log 19. -/
abbrev Memory := List Host.Cell

/-- The frame buffer, 64 columns by 32 rows of single-bit cells (R29): cell `fb[px,py]` is bit `px` of row `py`. -/
abbrev FrameBuffer := Vector (BitVec 64) 32

/-- The fatal conditions (R200). -/
inductive Fatal where
  /-- The fetched word matches none of the 34 patterns (R201). -/
  | unknownInstruction
  /-- `CALL` with a full stack (R202). -/
  | stackOverflow
  /-- `RET` with an empty stack (R203). -/
  | stackUnderflow
  /-- A byte address, or a next `pc`, above 0xFFF (R204). -/
  | addressRange
  /-- A key or glyph number above 0xF (R205). -/
  | indexRange
deriving DecidableEq, Repr

/-- The numeric code of a fatal condition (R200). -/
def Fatal.code : Fatal → Nat
  | .unknownInstruction => 1
  | .stackOverflow => 2
  | .stackUnderflow => 3
  | .addressRange => 4
  | .indexRange => 5

/-- What a fatal condition records: its kind, the `pc` and the word of the instruction that raised it (R32, R200). -/
structure FaultRecord where
  code : Fatal
  atPc : Word
  word : Word
deriving DecidableEq, Repr

/-- What a cycle returns (R107). -/
inductive Status where
  /-- The instruction completed. -/
  | ok
  /-- `LD_VX_K` found no key pressed. -/
  | waiting
  /-- The cycle raised a fatal condition, or the core was halted already. -/
  | fatal
deriving DecidableEq, Repr

/-- The machine state: R36's complete list of storages, the two outputs of the last cycle, and the model's own fields. -/
structure State where
  /-- `memory`, 4096 bytes (R20). -/
  mem : Memory
  /-- The general registers `V[0x0]` to `V[0xF]` (R21); `V[0xF]` is the flag register too (R22). -/
  V : Vector Byte 16
  /-- The index register (R23). -/
  I : Word
  /-- The program counter (R24). -/
  pc : Word
  /-- The return stack (R25). -/
  stack : Vector Word 16
  /-- The number of return addresses held, 0 to 16 (R26). -/
  sp : Fin 17
  /-- The delay timer (R27). -/
  DT : Byte
  /-- The sound timer (R28). -/
  ST : Byte
  /-- The frame buffer (R29). -/
  fb : FrameBuffer
  /-- Set by `CLS` and `DRW`, cleared by the host (R30). -/
  redraw : Bool
  /-- The keypad flags, written by the host between cycles (R31). -/
  keys : Vector Bool 16
  /-- The halt latch and fault record (R32). -/
  fault : Option FaultRecord
  /-- Output `status` of the last cycle (R34, R107; assumption log 4). -/
  status : Status
  /-- Output `tone` of the last cycle (R34, R106; assumption log 4). -/
  tone : Bool
  /-- The model's own: how many random bytes have been consumed, so that `Config.randByte draws` is the next one
  (assumption logs 1 and 3). -/
  draws : Nat
  /-- The model's own: the parameters of this machine (R7); nothing writes it. -/
  cfg : Config
deriving DecidableEq, Repr

/-- The faults of the model: NONE. Every exceptional event the spec names is a fatal condition whose effect on the state
it gives (R206, R210), so it is a next state that holds the record in `State.fault` (assumption log 6). -/
inductive Fault
deriving DecidableEq, Repr

/-- The refusals of the model. No arm of `exec` uses one: every instruction has its meaning. -/
inductive Refusal where
  /-- Raised by an arm of `exec` whose instruction has no meaning yet. Safe: the model stops where the hardware goes on. -/
  | notModelled (mnemonic : String)
deriving DecidableEq, Repr

/-- The machine after `Reset` with the empty ROM image and the default parameters (R40, R230): memory with nothing listed
is zeroed memory with the font installed. The values of `V`, `I`, `fb`, `redraw`, `keys` and the stack entries are the
spec's decision D2 (assumption log 7), those of `status`, `tone` and `draws` DESIGN CHOICE (logs 3 and 4). -/
def State.reset : State where
  mem := []
  V := Vector.replicate 16 0x00#8
  I := 0x000#16
  pc := 0x200#16
  stack := Vector.replicate 16 0x0000#16
  sp := 0
  DT := 0#8
  ST := 0#8
  fb := Vector.replicate 32 0#64
  redraw := false
  keys := Vector.replicate 16 false
  fault := none
  status := .ok
  tone := false
  draws := 0
  cfg := defaultConfig

end Sys2Proof.Machine
end

