-- ==== Sys2Proof/WellFormed.lean ====
section
/-! DEFINITION. What is well formed: an instruction word (the opcode map, spec/30_encoding.md rule R76), the parameters
(spec/00_scope.md rule R7) and a ROM image (spec/70_reset_and_hazards.md rule R232). A term of `Instr` needs no check of
its own: the types of its fields hold exactly the values R71 and R73 give them. -/

namespace Sys2Proof

/-- One row of the opcode map: a word `w` is the row's instruction exactly when `w & mask = bits` (R76). -/
structure OpcodeRow where
  mnemonic : String
  mask : Word
  bits : Word
deriving DecidableEq, Repr

/-- A word is the row's instruction (R76). -/
def OpcodeRow.covers (r : OpcodeRow) (w : Word) : Bool := w &&& r.mask == r.bits

/-- No word is the instruction of both rows: the rows fix some common bit differently. -/
def OpcodeRow.disjoint (r q : OpcodeRow) : Bool := (r.bits ^^^ q.bits) &&& r.mask &&& q.mask != 0#16

/-- Rows 1 to 12 of the opcode map (R76). -/
def opcodeRows0 : List OpcodeRow :=
  [ ⟨"CLS", 0xFFFF#16, 0x00E0#16⟩,
    ⟨"RET", 0xFFFF#16, 0x00EE#16⟩,
    ⟨"JP", 0xF000#16, 0x1000#16⟩,
    ⟨"CALL", 0xF000#16, 0x2000#16⟩,
    ⟨"SE_IMM", 0xF000#16, 0x3000#16⟩,
    ⟨"SNE_IMM", 0xF000#16, 0x4000#16⟩,
    ⟨"SE_REG", 0xF00F#16, 0x5000#16⟩,
    ⟨"LD_IMM", 0xF000#16, 0x6000#16⟩,
    ⟨"ADD_IMM", 0xF000#16, 0x7000#16⟩,
    ⟨"LD_REG", 0xF00F#16, 0x8000#16⟩,
    ⟨"OR", 0xF00F#16, 0x8001#16⟩,
    ⟨"AND", 0xF00F#16, 0x8002#16⟩ ]

/-- Rows 13 to 24 of the opcode map (R76). -/
def opcodeRows1 : List OpcodeRow :=
  [ ⟨"XOR", 0xF00F#16, 0x8003#16⟩,
    ⟨"ADD_REG", 0xF00F#16, 0x8004#16⟩,
    ⟨"SUB", 0xF00F#16, 0x8005#16⟩,
    ⟨"SHR", 0xF00F#16, 0x8006#16⟩,
    ⟨"SUBN", 0xF00F#16, 0x8007#16⟩,
    ⟨"SHL", 0xF00F#16, 0x800E#16⟩,
    ⟨"SNE_REG", 0xF00F#16, 0x9000#16⟩,
    ⟨"LD_I", 0xF000#16, 0xA000#16⟩,
    ⟨"JP_V0", 0xF000#16, 0xB000#16⟩,
    ⟨"RND", 0xF000#16, 0xC000#16⟩,
    ⟨"DRW", 0xF000#16, 0xD000#16⟩,
    ⟨"SKP", 0xF0FF#16, 0xE09E#16⟩ ]

/-- Rows 25 to 34 of the opcode map (R76). -/
def opcodeRows2 : List OpcodeRow :=
  [ ⟨"SKNP", 0xF0FF#16, 0xE0A1#16⟩,
    ⟨"LD_VX_DT", 0xF0FF#16, 0xF007#16⟩,
    ⟨"LD_VX_K", 0xF0FF#16, 0xF00A#16⟩,
    ⟨"LD_DT_VX", 0xF0FF#16, 0xF015#16⟩,
    ⟨"LD_ST_VX", 0xF0FF#16, 0xF018#16⟩,
    ⟨"ADD_I", 0xF0FF#16, 0xF01E#16⟩,
    ⟨"LD_F", 0xF0FF#16, 0xF029#16⟩,
    ⟨"LD_B", 0xF0FF#16, 0xF033#16⟩,
    ⟨"ST_REGS", 0xF0FF#16, 0xF055#16⟩,
    ⟨"LD_REGS", 0xF0FF#16, 0xF065#16⟩ ]


/-- The opcode map, 34 rows in the table's order (R76). -/
def opcodeRows : List OpcodeRow := opcodeRows0 ++ opcodeRows1 ++ opcodeRows2

/-- A word that some row of the opcode map covers; every other word is `UNKNOWN` (R76, R77). -/
def wordWf (w : Word) : Bool := opcodeRows.any (fun r => r.covers w)

/-- The parameters keep the glyphs in the reserved region: `FONT_BASE + 79 <= 0x1FF` (R7). -/
def Config.wf (c : Config) : Bool := decide (c.fontBase + 79 ≤ 0x1FF)

/-- A ROM image that fits into 0x200 to 0xFFF: at most 3584 bytes (R208, R232). -/
def romWf (rom : List Byte) : Bool := decide (rom.length ≤ 3584)

end Sys2Proof
end

