-- ==== Sys2Proof/Machine/Ops.lean ====
section
/-! DEFINITION. The named operations over memory, the return stack, the program counter, the timers and the fault latch
(spec/20_memory.md, spec/40_cycle_driver.md, spec/60_exceptions.md). -/

namespace Sys2Proof.Machine

/-! ### Memory (R20, R50 to R60) -/

/-- What an unlisted address reads as: the reset contents of memory without a ROM image, that is the font's bytes at
`FONT_BASE` to `FONT_BASE + 79` and 0x00 elsewhere (R20, R40, R51). -/
def Memory.unlisted (c : Config) (a : Nat) : Byte :=
  if h : c.fontBase ≤ a ∧ a < c.fontBase + 80 then c.font[a - c.fontBase]'(by omega) else 0x00#8

/-- The byte at an address (R12, R59). -/
def Memory.read (c : Config) : Memory → Nat → Byte
  | [], a => Memory.unlisted c a
  | (k, v) :: rest, a => if k = a then v else Memory.read c rest a

/-- Put one cell into its place in the rising order. -/
def Memory.insertCell (a : Nat) (v : Byte) : Memory → Memory
  | [] => [(a, v)]
  | (k, b) :: rest => if a < k then (a, v) :: (k, b) :: rest else (k, b) :: Memory.insertCell a v rest

/-- Store a byte at an address (R12), keeping the canonical form: the address's old cell goes, and a new one comes only for
a byte that differs from what the unlisted address reads as. -/
def Memory.write (c : Config) (m : Memory) (a : Nat) (v : Byte) : Memory :=
  let others := m.filter (fun cell => cell.1 != a)
  if v = Memory.unlisted c a then others else Memory.insertCell a v others

/-- Store bytes at consecutive rising addresses (R55). -/
def Memory.writeBytes (c : Config) : Memory → Nat → List Byte → Memory
  | m, _, [] => m
  | m, a, b :: bs => Memory.writeBytes c (Memory.write c m a b) (a + 1) bs

/-- The canonical form: addresses strictly rising and in 0x000 to 0xFFF, no cell equal to what its address reads as
unlisted. -/
def Memory.wf (c : Config) (m : Memory) : Bool :=
  decide (m.Pairwise (fun p q => p.1 < q.1)) &&
    m.all (fun cell => decide (cell.1 ≤ 0xFFF) && (cell.2 != Memory.unlisted c cell.1))

/-- The range check of R57: the `count` bytes from `first` on are all in 0x000 to 0xFFF. No byte is always in range. -/
def spanInMemory (first count : Nat) : Bool := count == 0 || decide (first + count ≤ 0x1000)

/-- `MemRead(addr, 1)` on the machine's memory (R12). -/
def State.readByte (s : State) (a : Nat) : Byte := s.mem.read s.cfg a

/-- `MemWrite` of consecutive bytes on the machine's memory (R12, R55). -/
def State.writeBytes (s : State) (a : Nat) (bs : List Byte) : State :=
  { s with mem := s.mem.writeBytes s.cfg a bs }

/-! ### Raising a fatal condition (R206)

The one shared operation that takes an exception. There is no handler, no saved register and no change of mode (R210), and
no instruction returns (R211): the only way out of the halted condition is `State.boot` of Sys2Proof/Machine/Environment.lean. -/

/-- `raise code(pc, w)`: the record is latched, the cycle returns `FATAL` with `tone` 0, and no other state element changes
(R13, R206). -/
def State.raise (s : State) (code : Fatal) (w : Word) : State :=
  { s with fault := some { code := code, atPc := s.pc, word := w }, status := .fatal, tone := false }

/-- A cycle of a halted core: it returns `FATAL` with `tone` 0 and changes nothing (R100 step 0, R109). -/
def State.stayHalted (s : State) : State := { s with status := .fatal, tone := false }

/-! ### Committing the next `pc` (R104) -/

/-- The program counter takes `next`, the instruction is done. -/
def State.advance (s : State) (next : Nat) : State := { s with pc := BitVec.ofNat 16 next, status := .ok }

/-- The commit of R100 step 4: `written` is the state `s` with the instruction's own writes performed; if the next `pc` is
above 0xFFF the instruction raises `AddressRange` instead and none of its writes is performed. `next` is not reduced. -/
def State.commit (s : State) (w : Word) (next : Nat) (written : State) : State :=
  if next > 0xFFF then s.raise .addressRange w else written.advance next

/-- The sequential class: `pc + 2` (R104). -/
def State.sequential (s : State) (w : Word) (written : State) : State := s.commit w (s.pc.toNat + 2) written

/-- The skip class: `pc + 4` if the condition holds, else `pc + 2` (R104). -/
def State.skipIf (s : State) (w : Word) (cond : Bool) : State :=
  s.commit w (if cond then s.pc.toNat + 4 else s.pc.toNat + 2) s

/-- The transfer class: the target, with no further advance (R104). -/
def State.transfer (s : State) (w : Word) (target : Nat) (written : State) : State := s.commit w target written

/-- The hold class: `pc` unchanged, the cycle returns `WAITING` (R104, R108, R182). -/
def State.hold (s : State) : State := { s with status := .waiting }

/-! ### The return stack (R25, R26) -/

/-- Push a return address, or `none` on a full stack (R122). -/
def State.push (s : State) (ret : Word) : Option State :=
  if h : s.sp.val < 16 then
    some { s with stack := s.stack.set s.sp.val ret h, sp := ⟨s.sp.val + 1, by omega⟩ }
  else none

/-- The newest return address and the state without it, or `none` on an empty stack; the entry is not erased (R121). -/
def State.pop (s : State) : Option (Word × State) :=
  if 0 < s.sp.val then
    some (s.stack[s.sp.val - 1], { s with sp := ⟨s.sp.val - 1, by omega⟩ })
  else none

/-! ### The timer tick (R105, R106) -/

/-- One timer's tick: down by 1 unless it is 0 (R105). -/
def tickTimer (t : Byte) : Byte := if t.toNat > 0 then t - 1#8 else t

/-- The tick that ends every cycle that did not raise; `tone` is 1 exactly when it takes `ST` from 1 to 0 (R105, R106). -/
def State.tick (s : State) : State :=
  { s with DT := tickTimer s.DT, ST := tickTimer s.ST, tone := s.ST == 1#8 }

/-! ### Fetch (R54, R101) -/

/-- Both bytes of the word at `pc` lie in memory (R101). -/
def State.fetchInMemory (s : State) : Bool := spanInMemory s.pc.toNat 2

/-- `MemRead(pc, 2)`, big-endian, at any alignment (R12, R54, R56). -/
def State.fetchWord (s : State) : Word := wordOfBytes (s.readByte s.pc.toNat) (s.readByte (s.pc.toNat + 1))

/-- The word that a failed fetch records: at `pc` = 0xFFF the byte that exists, in the high half, over 0x00 (R101). Above
0xFFF, where no run comes (R37), a free value (assumption log 2). -/
def State.failedFetchWord (s : State) : Word :=
  if s.pc.toNat ≤ 0xFFF then wordOfBytes (s.readByte s.pc.toNat) 0x00#8 else Config.wordBeyondMemory s.pc

/-- The halt latch open (R32). No instruction does this: it serves `State.placeWord`. -/
def State.openLatch (s : State) : State := { s with fault := none }

/-- The machine with a word stored where the next cycle fetches, in memory order (R54), and the halt latch open (a halted
core fetches nothing, R100 step 0). Where `pc` is above 0xFFE no word can stand, and memory is left alone. -/
def State.placeWord (s : State) (w : Word) : State :=
  (if s.fetchInMemory then s.writeBytes s.pc.toNat [firstByte w, secondByte w] else s).openLatch

end Sys2Proof.Machine
end

