-- ==== Sys2Proof/Machine/Operands.lean ====
section
/-! DEFINITION. The operand forms: general registers, the register block `V[0]` to `V[x]`, a register as key or glyph
number, the index register and its bytes, the keypad (spec/10_state.md, spec/43_index_memory.md rule R166,
spec/45_keypad_timers.md). -/

namespace Sys2Proof.Machine

/-- `V[x]` (R21). -/
def State.reg (s : State) (x : Reg) : Byte := s.V[x.val]

/-- `V[x] <- v` (R21). -/
def State.setReg (s : State) (x : Reg) (v : Byte) : State := { s with V := s.V.set x.val v }

/-- The two writes of a flag-writing instruction, in the order of its row: the flag first, the destination second, so that
for `x` = 0xF the destination's value stays (R14, R152; decision D9, assumption log 12). -/
def State.setFlagThenReg (s : State) (flag : Byte) (x : Reg) (v : Byte) : State := (s.setReg flagReg flag).setReg x v

/-- A register used as the number of one of the sixteen keys or glyphs; `none` for a value above 0xF (R205). -/
def State.digit (s : State) (x : Reg) : Option (Fin 16) :=
  if h : (s.reg x).toNat < 16 then some ⟨(s.reg x).toNat, h⟩ else none

/-- The bytes `V[0]`, ..., `V[x]` in rising order (R164). -/
def State.regBlock (s : State) (x : Reg) : List Byte := s.V.toList.take (x.val + 1)

/-- `V[i] <- memory[I + i]` for every `i` in 0 to `x`; the others keep their values (R165). -/
def State.loadRegBlock (s : State) (x : Reg) : State :=
  { s with V := Vector.ofFn fun i : Fin 16 => if i ≤ x then s.readByte (s.I.toNat + i.val) else s.reg i }

/-- `I <- a`, for an address below 0x10000 (R23). -/
def State.setI (s : State) (a : Nat) : State := { s with I := BitVec.ofNat 16 a }

/-- `DT <- v` (R184). -/
def State.setDT (s : State) (v : Byte) : State := { s with DT := v }

/-- `ST <- v` (R185). -/
def State.setST (s : State) (v : Byte) : State := { s with ST := v }

/-- `keys[k]` (R31). -/
def State.key (s : State) (k : Fin 16) : Bool := s.keys[k.val]

/-- The lowest-numbered pressed key, if one is pressed (R182; decision D11, assumption log 14). -/
def State.lowestKey (s : State) : Option (Fin 16) := (List.finRange 16).find? s.key

/-- The three decimal digits of a byte, hundreds first, a byte each (R163). -/
def decimalDigits (v : Byte) : List Byte :=
  [BitVec.ofNat 8 (v.toNat / 100), BitVec.ofNat 8 (v.toNat / 10 % 10), BitVec.ofNat 8 (v.toNat % 10)]

end Sys2Proof.Machine
end

