-- ==== Sys2Proof/Machine/ControlFlow.lean ====
section
/-! DEFINITION. Control transfer (spec/41_control_flow.md rules R120 to R127). -/

namespace Sys2Proof.Machine

/-- 1nnn `JP`: `pc <- nnn` (R120). -/
def execJp (nnn : Addr) (s : State) : Host.Outcome State Fault Refusal :=
  .next (s.transfer (encode (.jp nnn)) nnn.toNat s)

/-- 00EE `RET`: pop the newest return address into `pc`; `StackUnderflow` on an empty stack (R121). -/
def execRet (s : State) : Host.Outcome State Fault Refusal :=
  match s.pop with
  | none => .next (s.raise .stackUnderflow (encode .ret))
  | some (t, popped) => .next (s.transfer (encode .ret) t.toNat popped)

/-- 2nnn `CALL`: push `pc + 2`, `pc <- nnn`; `StackOverflow` on a full stack (R122). -/
def execCall (nnn : Addr) (s : State) : Host.Outcome State Fault Refusal :=
  match s.push (BitVec.ofNat 16 (s.pc.toNat + 2)) with
  | none => .next (s.raise .stackOverflow (encode (.call nnn)))
  | some pushed => .next (s.transfer (encode (.call nnn)) nnn.toNat pushed)

/-- Bnnn `JP_V0`: `pc <- nnn + V[0]`, not reduced (R123). -/
def execJpV0 (nnn : Addr) (s : State) : Host.Outcome State Fault Refusal :=
  .next (s.transfer (encode (.jpV0 nnn)) (nnn.toNat + (s.reg 0).toNat) s)

/-- 3xnn `SE_IMM`: skip if `V[x] = nn` (R124). -/
def execSeImm (x : Reg) (nn : Byte) (s : State) : Host.Outcome State Fault Refusal :=
  .next (s.skipIf (encode (.seImm x nn)) (s.reg x == nn))

/-- 4xnn `SNE_IMM`: skip if `V[x] != nn` (R125). -/
def execSneImm (x : Reg) (nn : Byte) (s : State) : Host.Outcome State Fault Refusal :=
  .next (s.skipIf (encode (.sneImm x nn)) (s.reg x != nn))

/-- 5xy0 `SE_REG`: skip if `V[x] = V[y]` (R126). -/
def execSeReg (x y : Reg) (s : State) : Host.Outcome State Fault Refusal :=
  .next (s.skipIf (encode (.seReg x y)) (s.reg x == s.reg y))

/-- 9xy0 `SNE_REG`: skip if `V[x] != V[y]` (R127). -/
def execSneReg (x y : Reg) (s : State) : Host.Outcome State Fault Refusal :=
  .next (s.skipIf (encode (.sneReg x y)) (s.reg x != s.reg y))

end Sys2Proof.Machine
end

