-- ==== Sys2Proof/Machine/Flags.lean ====
section
/-! DEFINITION. The values written to the flag register `V[0xF]`, always 0x00 or 0x01 (spec/10_state.md rule R22,
spec/42_register_alu.md rule R152). -/

namespace Sys2Proof.Machine

/-- A condition as a flag value. -/
def flagOf (b : Bool) : Byte := if b then 0x01#8 else 0x00#8

/-- The carry out of bit 7 of `a + b`: 1 if the sum is above 255 (R146). -/
def carryFlag (a b : Byte) : Byte := flagOf (decide (a.toNat + b.toNat > 255))

/-- "No borrow" of `a - b`: 1 if `a >= b` (R147, R148). -/
def noBorrowFlag (a b : Byte) : Byte := flagOf (decide (a.toNat ≥ b.toNat))

/-- The bit that `a >> 1` shifts out, `a[0:0]` (R149). -/
def lowBitFlag (a : Byte) : Byte := flagOf (a.getLsbD 0)

/-- The bit that `a << 1` shifts out, `a[7:7]` (R151). -/
def highBitFlag (a : Byte) : Byte := flagOf (a.getLsbD 7)

/-- The collision flag of `DRW`: 1 if some cell went from 1 to 0, else 0 (R171; the 0 is decision D8, log 11). -/
def collisionFlag (collision : Bool) : Byte := flagOf collision

/-- The overflow of `ADD_I` past 0xFFF (R161). -/
def indexOverflow (sum : Nat) : Bool := decide (sum > 0xFFF)

end Sys2Proof.Machine
end

