-- ==== Sys2Proof/Machine/Display.lean ====
section
/-! DEFINITION. The frame buffer and the display instructions (spec/44_display.md rules R170 to R173). -/

namespace Sys2Proof.Machine

/-- `fb[px,py]` (R29). -/
def FrameBuffer.pixel (f : FrameBuffer) (px : Fin 64) (py : Fin 32) : Bool := f[py.val].getLsbD px.val

/-- `fb[px,py] <- fb[px,py] ^ 1` (R171). -/
def FrameBuffer.toggle (f : FrameBuffer) (px : Fin 64) (py : Fin 32) : FrameBuffer :=
  f.set py.val (f[py.val] ^^^ BitVec.twoPow 64 px.val)

/-- Every cell 0 (R170). -/
def FrameBuffer.clear : FrameBuffer := Vector.replicate 32 0#64

/-- A column of the frame buffer, `mod 64` (R171). -/
def wrapColumn (n : Nat) : Fin 64 := ⟨n % 64, Nat.mod_lt n (by decide)⟩

/-- A row of the frame buffer, `mod 32` (R171). -/
def wrapRow (n : Nat) : Fin 32 := ⟨n % 32, Nat.mod_lt n (by decide)⟩

/-- A drawing in progress: the frame buffer so far, and whether some cell went from 1 to 0 (R171). -/
abbrev Drawing := FrameBuffer × Bool

/-- One sprite pixel that is 1: collide if the cell is 1, and flip it (R171). -/
def Drawing.dot (d : Drawing) (px : Fin 64) (py : Fin 32) : Drawing := (d.1.toggle px py, d.2 || d.1.pixel px py)

/-- One row of a sprite, the byte `b` from column `x0` on, bit 7 leftmost, with wrap-around (R171; the width and the bit
order are R172's general knowledge, assumption log 11). -/
def Drawing.row (d : Drawing) (x0 : Nat) (py : Fin 32) (b : Byte) : Drawing :=
  (List.range 8).foldl (fun d c => if b.getLsbD (7 - c) then d.dot (wrapColumn (x0 + c)) py else d) d

/-- The rows of a sprite, one byte each, from (`x0`, `y0`) down, with wrap-around (R171). -/
def Drawing.rows (d : Drawing) (x0 y0 : Nat) : List Byte → Drawing
  | [] => d
  | b :: bs => Drawing.rows (d.row x0 (wrapRow y0) b) x0 (y0 + 1) bs

/-- The `n` bytes of the sprite at `I` (R171). -/
def State.spriteBytes (s : State) (n : Nat) : List Byte := (List.range n).map fun r => s.readByte (s.I.toNat + r)

/-- The sprite drawn at (`V[x] mod 64`, `V[y] mod 32`) on the frame buffer (R171). -/
def State.drawing (s : State) (x y : Reg) (n : Nat) : Drawing :=
  Drawing.rows (s.fb, false) ((s.reg x).toNat % 64) ((s.reg y).toNat % 32) (s.spriteBytes n)

/-- `DRW`'s writes: the frame buffer, `V[0xF]`, `redraw` (R171). -/
def State.draw (s : State) (d : Drawing) : State :=
  { s.setReg flagReg (collisionFlag d.2) with fb := d.1, redraw := true }

/-- 00E0 `CLS`: every cell 0, `redraw` set (R170). -/
def execCls (s : State) : Host.Outcome State Fault Refusal :=
  .next (s.sequential (encode .cls) { s with fb := FrameBuffer.clear, redraw := true })

/-- Dxyn `DRW`; `AddressRange` before any read or write if a sprite byte lies above 0xFFF (R171, R173). -/
def execDrw (x y : Reg) (n : Nibble) (s : State) : Host.Outcome State Fault Refusal :=
  if spanInMemory s.I.toNat n.toNat then
    .next (s.sequential (encode (.drw x y n)) (s.draw (s.drawing x y n.toNat)))
  else .next (s.raise .addressRange (encode (.drw x y n)))

end Sys2Proof.Machine
end

