-- ==== Sys2Proof/Machine/IndexMemory.lean ====
section
/-! DEFINITION. Index register and memory instructions (spec/43_index_memory.md rules R160 to R165). All are of the
sequential class; none of the memory instructions changes `I`. -/

namespace Sys2Proof.Machine

/-- Annn `LD_I`: `I <- nnn` (R160). -/
def execLdI (nnn : Addr) (s : State) : Host.Outcome State Fault Refusal :=
  .next (s.sequential (encode (.ldI nnn)) (s.setI nnn.toNat))

/-- `ADD_I`'s writes: `I <- sum mod 0x1000`, then `V[0xF] <- 1` if the quirk is on and the sum passed 0xFFF (R161; the
reduction and the missing write of 0 are decision D5, assumption log 9). -/
def State.addIndex (s : State) (v : Byte) : State :=
  let sum := s.I.toNat + v.toNat
  let t := s.setI (sum % 0x1000)
  if s.cfg.quirkFx1eFlag && indexOverflow sum then t.setReg flagReg 0x01#8 else t

/-- Fx1E `ADD_I` (R161). -/
def execAddI (x : Reg) (s : State) : Host.Outcome State Fault Refusal :=
  .next (s.sequential (encode (.addI x)) (s.addIndex (s.reg x)))

/-- Fx29 `LD_F`: `I <- FONT_BASE + 5 * V[x]`; `IndexRange` for `V[x]` above 0xF (R162). -/
def execLdF (x : Reg) (s : State) : Host.Outcome State Fault Refusal :=
  match s.digit x with
  | none => .next (s.raise .indexRange (encode (.ldF x)))
  | some d => .next (s.sequential (encode (.ldF x)) (s.setI (s.cfg.fontBase + 5 * d.val)))

/-- Fx33 `LD_B`: the decimal digits of `V[x]` to `I`, `I + 1`, `I + 2`; `AddressRange` before any store if one of them is
above 0xFFF (R163). -/
def execLdB (x : Reg) (s : State) : Host.Outcome State Fault Refusal :=
  if spanInMemory s.I.toNat 3 then
    .next (s.sequential (encode (.ldB x)) (s.writeBytes s.I.toNat (decimalDigits (s.reg x))))
  else .next (s.raise .addressRange (encode (.ldB x)))

/-- Fx55 `ST_REGS`: `V[0]` to `V[x]` to `I` to `I + x`; `AddressRange` before any store if `I + x` is above 0xFFF (R164). -/
def execStRegs (x : Reg) (s : State) : Host.Outcome State Fault Refusal :=
  if spanInMemory s.I.toNat (x.val + 1) then
    .next (s.sequential (encode (.stRegs x)) (s.writeBytes s.I.toNat (s.regBlock x)))
  else .next (s.raise .addressRange (encode (.stRegs x)))

/-- Fx65 `LD_REGS`: `V[0]` to `V[x]` from `I` to `I + x`; `AddressRange` before any write if `I + x` is above 0xFFF
(R165). -/
def execLdRegs (x : Reg) (s : State) : Host.Outcome State Fault Refusal :=
  if spanInMemory s.I.toNat (x.val + 1) then
    .next (s.sequential (encode (.ldRegs x)) (s.loadRegBlock x))
  else .next (s.raise .addressRange (encode (.ldRegs x)))

end Sys2Proof.Machine
end

