-- ==== Sys2Proof/Machine/KeypadTimers.lean ====
section
/-! DEFINITION. Keypad and timer instructions (spec/45_keypad_timers.md rules R180 to R185). The tick that follows in the
same cycle is `State.tick`, performed by Sys2Proof/Machine/Cycle.lean. -/

namespace Sys2Proof.Machine

/-- Ex9E `SKP`: skip if key `V[x]` is pressed; `IndexRange` for `V[x]` above 0xF (R180). -/
def execSkp (x : Reg) (s : State) : Host.Outcome State Fault Refusal :=
  match s.digit x with
  | none => .next (s.raise .indexRange (encode (.skp x)))
  | some k => .next (s.skipIf (encode (.skp x)) (s.key k))

/-- ExA1 `SKNP`: skip if key `V[x]` is not pressed; `IndexRange` for `V[x]` above 0xF (R181). -/
def execSknp (x : Reg) (s : State) : Host.Outcome State Fault Refusal :=
  match s.digit x with
  | none => .next (s.raise .indexRange (encode (.sknp x)))
  | some k => .next (s.skipIf (encode (.sknp x)) (!s.key k))

/-- Fx0A `LD_VX_K`: wait while no key is pressed, else `V[x]` takes the lowest-numbered pressed key (R182). -/
def execLdVxK (x : Reg) (s : State) : Host.Outcome State Fault Refusal :=
  match s.lowestKey with
  | none => .next s.hold
  | some k => .next (s.sequential (encode (.ldVxK x)) (s.setReg x (BitVec.ofNat 8 k.val)))

/-- Fx07 `LD_VX_DT`: `V[x] <- DT`, before this cycle's tick (R183). -/
def execLdVxDt (x : Reg) (s : State) : Host.Outcome State Fault Refusal :=
  .next (s.sequential (encode (.ldVxDt x)) (s.setReg x s.DT))

/-- Fx15 `LD_DT_VX`: `DT <- V[x]` (R184). -/
def execLdDtVx (x : Reg) (s : State) : Host.Outcome State Fault Refusal :=
  .next (s.sequential (encode (.ldDtVx x)) (s.setDT (s.reg x)))

/-- Fx18 `LD_ST_VX`: `ST <- V[x]` (R185). -/
def execLdStVx (x : Reg) (s : State) : Host.Outcome State Fault Refusal :=
  .next (s.sequential (encode (.ldStVx x)) (s.setST (s.reg x)))

end Sys2Proof.Machine
end

