-- ==== Sys2Proof/Machine/RegisterAlu.lean ====
section
/-! DEFINITION. Register load, arithmetic, logic, shifts, random (spec/42_register_alu.md rules R140 to R153). All are of
the sequential class; every operand is read from the state at the start (R14). -/

namespace Sys2Proof.Machine

/-- 6xnn `LD_IMM`: `V[x] <- nn` (R140). -/
def execLdImm (x : Reg) (nn : Byte) (s : State) : Host.Outcome State Fault Refusal :=
  .next (s.sequential (encode (.ldImm x nn)) (s.setReg x nn))

/-- 7xnn `ADD_IMM`: `V[x] <- (V[x] + nn) mod 256`, no flag (R141). -/
def execAddImm (x : Reg) (nn : Byte) (s : State) : Host.Outcome State Fault Refusal :=
  .next (s.sequential (encode (.addImm x nn)) (s.setReg x (s.reg x + nn)))

/-- 8xy0 `LD_REG`: `V[x] <- V[y]` (R142). -/
def execLdReg (x y : Reg) (s : State) : Host.Outcome State Fault Refusal :=
  .next (s.sequential (encode (.ldReg x y)) (s.setReg x (s.reg y)))

/-- 8xy1 `OR`: `V[x] <- V[x] | V[y]`, no flag (R143). -/
def execOr (x y : Reg) (s : State) : Host.Outcome State Fault Refusal :=
  .next (s.sequential (encode (.or x y)) (s.setReg x (s.reg x ||| s.reg y)))

/-- 8xy2 `AND`: `V[x] <- V[x] & V[y]`, no flag (R144). -/
def execAnd (x y : Reg) (s : State) : Host.Outcome State Fault Refusal :=
  .next (s.sequential (encode (.and x y)) (s.setReg x (s.reg x &&& s.reg y)))

/-- 8xy3 `XOR`: `V[x] <- V[x] ^ V[y]`, no flag (R145). -/
def execXor (x y : Reg) (s : State) : Host.Outcome State Fault Refusal :=
  .next (s.sequential (encode (.xor x y)) (s.setReg x (s.reg x ^^^ s.reg y)))

/-- 8xy4 `ADD_REG`: the carry to `V[0xF]`, then `V[x] <- (V[x] + V[y]) mod 256` (R146). -/
def execAddReg (x y : Reg) (s : State) : Host.Outcome State Fault Refusal :=
  .next (s.sequential (encode (.addReg x y)) (s.setFlagThenReg (carryFlag (s.reg x) (s.reg y)) x (s.reg x + s.reg y)))

/-- 8xy5 `SUB`: "no borrow" to `V[0xF]`, then `V[x] <- (V[x] - V[y]) mod 256` (R147). -/
def execSub (x y : Reg) (s : State) : Host.Outcome State Fault Refusal :=
  .next (s.sequential (encode (.sub x y)) (s.setFlagThenReg (noBorrowFlag (s.reg x) (s.reg y)) x (s.reg x - s.reg y)))

/-- 8xy7 `SUBN`: "no borrow" to `V[0xF]`, then `V[x] <- (V[y] - V[x]) mod 256` (R148). -/
def execSubn (x y : Reg) (s : State) : Host.Outcome State Fault Refusal :=
  .next (s.sequential (encode (.subn x y)) (s.setFlagThenReg (noBorrowFlag (s.reg y) (s.reg x)) x (s.reg y - s.reg x)))

/-- 8xy6 `SHR`: the old bit 0 of `V[x]` to `V[0xF]`, then `V[x] <- V[x] >> 1`; `V[y]` is ignored (R149, R150). -/
def execShr (x y : Reg) (s : State) : Host.Outcome State Fault Refusal :=
  .next (s.sequential (encode (.shr x y)) (s.setFlagThenReg (lowBitFlag (s.reg x)) x (s.reg x >>> 1)))

/-- 8xyE `SHL`: the old bit 7 of `V[x]` to `V[0xF]`, then `V[x] <- (V[x] << 1) mod 256`; `V[y]` is ignored (R150, R151). -/
def execShl (x y : Reg) (s : State) : Host.Outcome State Fault Refusal :=
  .next (s.sequential (encode (.shl x y)) (s.setFlagThenReg (highBitFlag (s.reg x)) x (s.reg x <<< 1)))

/-- `RND`'s writes for the random byte `rand`: `V[x] <- rand & nn`, and the draw is consumed (R153). -/
def State.drawInto (s : State) (x : Reg) (nn rand : Byte) : State :=
  { s.setReg x (rand &&& nn) with draws := s.draws + 1 }

/-- Cxnn `RND`: `V[x] <- rand & nn`, `rand` the free value of this draw (R8, R153; assumption log 1). -/
def execRnd (x : Reg) (nn : Byte) (s : State) : Host.Outcome State Fault Refusal :=
  .next (s.sequential (encode (.rnd x nn)) (s.drawInto x nn (Config.randByte s.draws)))

end Sys2Proof.Machine
end

