-- ==== Sys2Proof/Machine/Cycle.lean ====
section
/-! DEFINITION. The cycle driver (spec/40_cycle_driver.md rules R100 to R110). -/

namespace Sys2Proof.Machine

/-- The `UNKNOWN` operation: always fatal (R110). -/
def State.unknown (s : State) (w : Word) : State := s.raise .unknownInstruction w

/-- What follows the executor (R100 step 5): the tick, unless the instruction raised. -/
def afterExec : Host.Outcome State Fault Refusal → Host.Outcome State Fault Refusal
  | .next t => .next (if t.fault.isSome then t else t.tick)
  | .fault r => .fault r
  | .refused r => .refused r

/-- Decode and execute a fetched word, then tick (R100 steps 2 to 5, R102, R110). -/
def runWord (s : State) (w : Word) : Host.Outcome State Fault Refusal :=
  match decode w with
  | .known i => afterExec (exec i s)
  | .unknown w => .next (s.unknown w)

/-- One `Cycle(keys, rand)` (R100): nothing if halted, else fetch, decode, execute, commit, tick. `keys` is the state's
field; `rand` is the free value of the state's next draw. -/
def cycle (s : State) : Host.Outcome State Fault Refusal :=
  if s.fault.isSome then .next s.stayHalted
  else if s.fetchInMemory then runWord s s.fetchWord
  else .next (s.raise .addressRange s.failedFetchWord)

end Sys2Proof.Machine
end

