-- ==== Sys2Proof/Machine/Step.lean ====
section
/-! DEFINITION. One step of the machine is one cycle (spec/40_cycle_driver.md rule R100). -/

namespace Sys2Proof.Machine

/-- One step: one invocation of the cycle driver. -/
def step (s : State) : Host.Outcome State Fault Refusal := Sys2Proof.Machine.cycle s

/-- The machine with the instruction whose bits are `w` (numbered as spec/opcode_table.json numbers them, the bits at or
above `nbits` being 0) stored where the next step fetches, so that the next step runs it. It stands for the load of a
program from outside, `Reset(rom)` (R230, R232; assumption log 21). -/
def State.withFetchWord (s : State) (nbits w : Nat) : State := s.placeWord (BitVec.ofNat 16 (w % 2 ^ nbits))

end Sys2Proof.Machine
end

