-- ==== Sys2Proof/Machine/Environment.lean ====
section
/-! DEFINITION. What the host may do between cycles (spec/70_reset_and_hazards.md rules R230 to R232, R238). -/

namespace Sys2Proof.Machine

/-- Why a reset produces no state (R208). -/
inductive RomLoadError where
  /-- The image has more than 3584 bytes (R232). -/
  | tooLong (length : Nat)
deriving DecidableEq, Repr

/-- `Reset(rom)` (R230): the state of R40, or `RomLoadError` for an image of more than 3584 bytes (decision D20, log 23).
`draws` is where the model's own counter of random bytes stands (log 3). -/
def State.boot (c : Config) (draws : Nat) (rom : List Byte) : Except RomLoadError State :=
  if romWf rom then
    .ok { State.reset with mem := Memory.writeBytes c [] 0x200 rom, draws := draws, cfg := c }
  else .error (.tooLong rom.length)

/-- The host's moves that change a state (R238). -/
inductive HostMove where
  | reset (rom : List Byte)
  | press (k : Fin 16)
  | release (k : Fin 16)
  | clearRedraw
deriving DecidableEq, Repr

/-- `keys[k] <- pressed`, by the host (R31, R238). -/
def State.setKey (s : State) (k : Fin 16) (pressed : Bool) : State := { s with keys := s.keys.set k.val pressed }

/-- A move of the host between two cycles (R238). -/
def HostMove.apply : HostMove → State → Except RomLoadError State
  | .reset rom, s => State.boot s.cfg s.draws rom
  | .press k, s => .ok (s.setKey k true)
  | .release k, s => .ok (s.setKey k false)
  | .clearRedraw, s => .ok { s with redraw := false }

end Sys2Proof.Machine
end

