-- ==== Sys2Proof/Safety.lean ====
section
/-! DEFINITION. The terms in which claims speak of runs: the invariant of R37, the states a run can reach, the three ways a
run stands still (spec/70_reset_and_hazards.md rule R243), and the outcome that is a fatal condition (R206). -/

namespace Sys2Proof.Machine

/-- The invariant of every reachable state: R37's ranges of `pc` and `I` (the other ranges it names hold by the types of the
fields), return addresses at most 0x1000 (R25), memory in its canonical form, the parameters within R7's constraint, a
fault record that names the present `pc` (R109), and `FATAL` exactly while the latch is set (R107). -/
structure State.Inv (s : State) : Prop where
  pcInMemory : s.pc.toNat ≤ 0xFFF
  indexInMemory : s.I.toNat ≤ 0xFFF
  stackInRange : ∀ k : Fin 16, s.stack[k.val].toNat ≤ 0x1000
  memoryCanonical : s.mem.wf s.cfg = true
  parametersWf : s.cfg.wf = true
  faultAtPc : ∀ r, s.fault = some r → r.atPc = s.pc
  fatalIffLatched : s.status = .fatal ↔ s.fault.isSome = true

/-- The states of a run with the parameters `c`: after `Reset` with some ROM, after a cycle, after a move of the host. -/
inductive Reachable (c : Config) : State → Prop where
  | boot (draws : Nat) (rom : List Byte) (s : State) (h : State.boot c draws rom = .ok s) : Reachable c s
  | cycle (s t : State) (hs : Reachable c s) (h : step s = .next t) : Reachable c t
  | host (m : HostMove) (s t : State) (hs : Reachable c s) (h : m.apply s = .ok t) : Reachable c t

/-- HALTED (R243): a fatal condition was raised. -/
def State.Halted (s : State) : Prop := s.fault.isSome = true

/-- PARKED (R243): the instruction at `pc` is `JP pc`. -/
def State.Parked (s : State) : Prop :=
  s.fault = none ∧ s.pc.toNat ≤ 0xFFE ∧ s.fetchWord = 0x1000#16 + s.pc

/-- WAITING (R243): the instruction at `pc` is `LD_VX_K` and no key is pressed. -/
def State.Waiting (s : State) : Prop :=
  s.fault = none ∧ s.pc.toNat ≤ 0xFFE ∧ (∃ x : Reg, decode s.fetchWord = .known (.ldVxK x)) ∧
    ∀ k : Fin 16, s.keys[k.val] = false

/-- The outcome of an instruction that raises (R206): the record in `fault`, the outputs `FATAL` and no tone, and every
other element as it was. -/
def raises (s : State) (code : Fatal) (w : Word) : Host.Outcome State Fault Refusal :=
  .next { s with fault := some { code := code, atPc := s.pc, word := w }, status := .fatal, tone := false }

end Sys2Proof.Machine
end

