-- ==== Sys2Proof/Certificates/Slice0/Obligations.lean ====
section
/-! DEFINITION. The statements about the model, for the provers. A result statement is an equality with a whole next state,
so it is the instruction's frame too: what the record update does not name is unchanged, every byte of memory included.
Where a clause rests on a decision D<n> of spec/92_eei_decisions.md, or on a choice of the model, its docstring says so. -/

open Sys2Proof Sys2Proof.Machine

/-! ### Encoding -/

/-- Words written out from the patterns of the opcode map decode to their instructions, and words of no pattern to
`UNKNOWN` (spec/30_encoding.md sections 2 to 4). -/
def Obligations.SampleWordsDecode : Prop :=
  decode 0b0000000011100000#16 = .known .cls ∧ decode 0b0000000011101110#16 = .known .ret ∧
  decode 0b0001101010111100#16 = .known (.jp 0xABC#12) ∧ decode 0b0011101001000010#16 = .known (.seImm 10 0x42#8) ∧
  decode 0b1000101010110110#16 = .known (.shr 10 11) ∧ decode 0b1000101010110111#16 = .known (.subn 10 11) ∧
  decode 0b1101101010110101#16 = .known (.drw 10 11 5#4) ∧ decode 0b1110101010100001#16 = .known (.sknp 10) ∧
  decode 0b1111101000001010#16 = .known (.ldVxK 10) ∧ decode 0b1111101001010101#16 = .known (.stRegs 10) ∧
  decode 0b0000000000000000#16 = .unknown 0x0000#16 ∧ decode 0b0101000100100001#16 = .unknown 0x5121#16

/-- Decoding the word of an instruction gives the instruction back, for every value of every field
(spec/30_encoding.md section 6, an inference the spec marks as derived). -/
def Obligations.DecodeOfEncodeIsInstr : Prop :=
  ∀ i : Instr, decode (encode i) = .known i

/-- A word that decodes to an instruction is the word of that instruction (spec/30_encoding.md section 6, an inference the
spec marks as derived). -/
def Obligations.EncodeOfDecodeIsWord : Prop :=
  ∀ (w : Word) (i : Instr), decode w = .known i → encode i = w

/-- A word is an instruction of the table exactly when it matches that instruction's row of the opcode map, a word that
matches no row decodes to `UNKNOWN` with the whole word, and no two rows match one word (spec/30_encoding.md section 3). -/
def Obligations.DecodeFollowsOpcodeMap : Prop :=
  (∀ (w : Word) (r : OpcodeRow), r ∈ opcodeRows →
    (w &&& r.mask = r.bits ↔ ∃ i : Instr, decode w = .known i ∧ i.mnemonic = r.mnemonic)) ∧
  (∀ w : Word, (∀ r ∈ opcodeRows, w &&& r.mask ≠ r.bits) → decode w = .unknown w) ∧
  (∀ (w : Word) (r q : OpcodeRow), r ∈ opcodeRows → q ∈ opcodeRows → w &&& r.mask = r.bits → w &&& q.mask = q.bits →
    r = q)

/-! ### The cycle -/

/-- When the two bytes at `pc`, big-endian, decode to an instruction, a step of a running core is `exec` of it, followed,
unless it raised, by the tick of both timers and the tone (spec/40_cycle_driver.md section 1; that a raising cycle does not
tick is decision D14). -/
def Obligations.StepRunsFetchedInstruction : Prop :=
  ∀ (s : State) (i : Instr), s.fault = none → s.pc.toNat ≤ 0xFFE →
    decode (BitVec.ofNat 16 ((s.readByte s.pc.toNat).toNat * 256 + (s.readByte (s.pc.toNat + 1)).toNat)) = .known i →
    ∃ t : State, exec i s = .next t ∧
      (t.fault = none → step s = .next { t with
        DT := BitVec.ofNat 8 (t.DT.toNat - 1), ST := BitVec.ofNat 8 (t.ST.toNat - 1), tone := decide (t.ST = 1#8) }) ∧
      (t.fault ≠ none → step s = .next t)

/-- A word of no pattern is fatal: the step records `UnknownInstruction`, `pc` and the word and changes no other element;
0x0000 and 0x5121 are such words, 0x5120 is not (R110). `status` and `tone` are the outputs of the cycle. -/
def Obligations.UnknownWordIsFatal : Prop :=
  (∀ (s : State) (w : Word), s.fault = none → s.pc.toNat ≤ 0xFFE →
    (s.readByte s.pc.toNat).toNat * 256 + (s.readByte (s.pc.toNat + 1)).toNat = w.toNat →
    (∀ r ∈ opcodeRows, w &&& r.mask ≠ r.bits) →
    step s = .next { s with
      fault := some { code := .unknownInstruction, atPc := s.pc, word := w }, status := .fatal, tone := false }) ∧
  decode 0x0000#16 = .unknown 0x0000#16 ∧ decode 0x5121#16 = .unknown 0x5121#16 ∧
  decode 0x5120#16 = .known (.seReg 1 2)

/-- A fetch at 0xFFF raises `AddressRange` and records the one byte that exists in the high half of the word (decisions D3
and D14; spec/40_cycle_driver.md section 1). -/
def Obligations.FetchPastTopRaises : Prop :=
  ∀ s : State, s.fault = none → s.pc = 0xFFF#16 →
    step s = raises s .addressRange (BitVec.ofNat 16 ((s.readByte 0xFFF).toNat * 256))

/-- A halted core answers `FATAL` without a tone and changes nothing, however often it is invoked (decision D14;
spec/40_cycle_driver.md section 1). -/
def Obligations.HaltedCoreStaysHalted : Prop :=
  ∀ (s : State) (r : FaultRecord) (k : Nat), s.fault = some r →
    core.run (k + 1) s = .next { s with status := .fatal, tone := false }

/-- Every cycle that does not raise takes both timers down by one, not below 0, and its tone is raised exactly by the step
of the sound timer from 1 to 0; a timer written by the instruction is written first (spec/40_cycle_driver.md section 1,
decisions D14 and D19). -/
def Obligations.CompletedCycleTicksTimers : Prop :=
  ∀ (s t : State) (i : Instr), s.fault = none → s.pc.toNat ≤ 0xFFE → decode s.fetchWord = .known i →
    step s = .next t → t.fault = none →
    ((∀ x, i ≠ .ldDtVx x) → t.DT.toNat = s.DT.toNat - 1) ∧
    (∀ x, i = .ldDtVx x → t.DT.toNat = (s.reg x).toNat - 1) ∧
    ((∀ x, i ≠ .ldStVx x) → t.ST.toNat = s.ST.toNat - 1 ∧ (t.tone = true ↔ s.ST.toNat = 1)) ∧
    (∀ x, i = .ldStVx x → t.ST.toNat = (s.reg x).toNat - 1 ∧ (t.tone = true ↔ (s.reg x).toNat = 1))

/-- A cycle that raises is precise: the record names the `pc` and the word that was fetched (at 0xFFF the byte that exists
over 0x00), and beside the record and the two outputs the whole state is as it was (decision D14;
spec/60_exceptions.md section 2). -/
def Obligations.RaisingCycleIsPrecise : Prop :=
  ∀ (s t : State) (r : FaultRecord), s.fault = none → s.pc.toNat ≤ 0xFFF → step s = .next t → t.fault = some r →
    r.atPc = s.pc ∧
    r.word = (if s.pc.toNat ≤ 0xFFE then s.readByte s.pc.toNat ++ s.readByte (s.pc.toNat + 1)
      else s.readByte s.pc.toNat ++ 0x00#8) ∧
    t = { s with fault := some r, status := .fatal, tone := false }

/-- Every instruction and every cycle answers a next state, in every state: no fault and no refusal of the model is
reachable (the model's choice, assumption log 6; spec/60_exceptions.md sections 2 and 3 give every fatal condition its
effect, spec/40_cycle_driver.md section 3 says that a cycle always terminates). -/
def Obligations.EveryCycleAnswersNext : Prop :=
  (∀ (i : Instr) (s : State), ∃ t, exec i s = .next t) ∧ (∀ s : State, ∃ t, step s = .next t)

/-- Every step from a state that meets the invariant gives one that meets it: `pc` and `I` in 0x000 to 0xFFF, return
addresses at most 0x1000, memory canonical, the parameters within their constraint, a fault record that names the present
`pc`, `FATAL` exactly while the latch is set (spec/10_state.md section 9; decisions D3, D4, D5 and D14, assumption logs 4
and 19). -/
def Obligations.StepKeepsInvariant : Prop :=
  ∀ s t : State, s.Inv → step s = .next t → t.Inv

/-- The reset state meets the invariant (spec/10_state.md sections 9 and 10). Its clause "`FATAL` exactly while the latch is
set" rests on the model's choice that `status` is `OK` before any cycle (assumption log 4, DESIGN CHOICE), its clause on the
canonical memory on the model's form of memory (assumption log 19, DESIGN CHOICE), its clauses on `I` and the stack entries on
decision D2, that on the latch on decision D14. -/
def Obligations.ResetMeetsInvariant : Prop :=
  State.reset.Inv

/-- `Reset(rom)` with any image that loads and any parameters within their constraint gives a state that meets the invariant, and
so does every move of the host from a state that meets it; beside `StepKeepsInvariant` (spec/10_state.md section 9,
spec/70_reset_and_hazards.md sections 1 and 3). It rests on decisions D2, D14, D20 and D22, on the model's choice of `status` at
reset (assumption log 4, DESIGN CHOICE) and on its form of memory (assumption log 19, DESIGN CHOICE). -/
def Obligations.HostMovesKeepInvariant : Prop :=
  (∀ (c : Config) (draws : Nat) (rom : List Byte) (s : State), c.wf = true → State.boot c draws rom = .ok s → s.Inv) ∧
  (∀ (m : HostMove) (s t : State), s.Inv → m.apply s = .ok t → t.Inv ∧ t.cfg = s.cfg)

/-- Every state that a run reaches, with any ROM that loads, any parameters within their constraint and any moves of the
host between cycles, meets the invariant (spec/10_state.md section 9, spec/70_reset_and_hazards.md section 3; decisions D2, D3,
D4, D5, D14, D20 and D22). It rests on the model's choice of `status` at reset (assumption log 4, DESIGN CHOICE) and on its form
of memory (assumption log 19, DESIGN CHOICE). -/
def Obligations.ReachableStatesMeetInvariant : Prop :=
  ∀ (c : Config) (s : State), c.wf = true → Reachable c s → s.Inv

/-- A cycle whose instruction is `JP nnn` with `nnn = pc`, with both timers 0, maps the state to itself (R113); `status` and
`tone` are the outputs of the cycle. -/
def Obligations.JumpToSelfIsIdempotent : Prop :=
  ∀ (s : State) (nnn : Addr), s.fault = none → s.pc.toNat ≤ 0xFFE → decode s.fetchWord = .known (.jp nnn) →
    nnn.toNat = s.pc.toNat → s.DT = 0#8 → s.ST = 0#8 → step s = .next { s with status := .ok, tone := false }

/-- A parked core (the instruction at `pc` is `JP pc`, R243's second shape) with the timers running: after `k + 1` further
cycles both timers are `k + 1` lower, or 0, nothing else has changed, and the last cycle gave a tone exactly if it took the sound
timer from 1 to 0; `status` stays `OK` (spec/70_reset_and_hazards.md section 6, decision D23; `status` and `tone` are the outputs
of the last cycle). -/
def Obligations.ParkedCoreOnlyTicks : Prop :=
  ∀ (s : State) (k : Nat), s.Parked →
    core.run (k + 1) s = .next { s with
      DT := BitVec.ofNat 8 (s.DT.toNat - (k + 1)), ST := BitVec.ofNat 8 (s.ST.toNat - (k + 1)),
      status := .ok, tone := decide (s.ST.toNat = k + 1) }

/-- While no key is pressed, every cycle of a core at an `LD_VX_K` answers `WAITING`, changes the two timers only, gives a
tone exactly when the sound timer steps to 0, and the next cycle fetches the same instruction; without a move of the host
this goes on for ever (spec/40_cycle_driver.md section 1). -/
def Obligations.WaitingCyclesOnlyTick : Prop :=
  ∀ (s : State) (x : Reg) (k : Nat), s.fault = none → s.pc.toNat ≤ 0xFFE → decode s.fetchWord = .known (.ldVxK x) →
    (∀ j : Fin 16, s.keys[j.val] = false) →
    core.run (k + 1) s = .next { s with
      DT := BitVec.ofNat 8 (s.DT.toNat - (k + 1)), ST := BitVec.ofNat 8 (s.ST.toNat - (k + 1)),
      status := .waiting, tone := decide (s.ST.toNat = k + 1) }

/-- `keys` is consumed only by `SKP`, `SKNP` and `LD_VX_K`, `rand` only by `RND`: the result of every other cycle (another
instruction, an unknown word, a failed fetch, a halted core) does not depend on `keys`, and that of every cycle but one of
`RND` neither on the random bytes (the model's counter `draws` picks the byte, assumption log 1) nor takes one
(spec/40_cycle_driver.md section 3). -/
def Obligations.OnlyTheirReadersUseInputs : Prop :=
  (∀ (s t : State) (ks : Vector Bool 16),
    (∀ x : Reg, decode s.fetchWord ≠ .known (.skp x) ∧ decode s.fetchWord ≠ .known (.sknp x) ∧
      decode s.fetchWord ≠ .known (.ldVxK x)) ∨ s.fault ≠ none ∨ 0xFFF ≤ s.pc.toNat →
    step s = .next t → step { s with keys := ks } = .next { t with keys := ks }) ∧
  (∀ (s t : State) (d : Nat),
    (∀ (x : Reg) (nn : Byte), decode s.fetchWord ≠ .known (.rnd x nn)) ∨ s.fault ≠ none ∨ 0xFFF ≤ s.pc.toNat →
    step s = .next t → t.draws = s.draws ∧ step { s with draws := d } = .next { t with draws := d })

/-- Which storage an instruction can change: memory only `LD_B` and `ST_REGS`; the frame buffer and `redraw` only `CLS` and
`DRW`, which set `redraw`; the stack only `CALL` and its pointer only `CALL` and `RET`; `I` only `LD_I`, `ADD_I` and `LD_F`;
each timer only its own load; `keys` and the parameters no instruction (spec/20_memory.md section 1, spec/10_state.md
sections 3 to 6). -/
def Obligations.StorageChangedOnlyByItsInstructions : Prop :=
  ∀ (i : Instr) (s t : State), exec i s = .next t →
    (t.mem = s.mem ∨ ∃ x, i = .ldB x ∨ i = .stRegs x) ∧
    (t.fb = s.fb ∨ i = .cls ∨ ∃ x y n, i = .drw x y n) ∧
    (t.redraw = s.redraw ∨ (t.redraw = true ∧ (i = .cls ∨ ∃ x y n, i = .drw x y n))) ∧
    (t.stack = s.stack ∨ ∃ a, i = .call a) ∧
    (t.sp = s.sp ∨ i = .ret ∨ ∃ a, i = .call a) ∧
    (t.I = s.I ∨ (∃ a, i = .ldI a) ∨ ∃ x, i = .addI x ∨ i = .ldF x) ∧
    (t.DT = s.DT ∨ ∃ x, i = .ldDtVx x) ∧
    (t.ST = s.ST ∨ ∃ x, i = .ldStVx x) ∧
    t.keys = s.keys ∧ t.cfg = s.cfg

/-! ### Control transfer -/

/-- `JP` sets `pc` to `nnn` and changes nothing else, in every state; no target raises (spec/41_control_flow.md). -/
def Obligations.JumpSetsPc : Prop :=
  ∀ (nnn : Addr) (s : State), decode (0x1#4 ++ nnn) = .known (.jp nnn) ∧
    exec (.jp nnn) s = .next { s with pc := BitVec.ofNat 16 nnn.toNat, status := .ok }

/-- `CALL` stores `pc + 2` at `stack[sp]`, takes `sp` up by one and `pc` to `nnn`; with a full stack it records
`StackOverflow` and pushes nothing (R122, R202). -/
def Obligations.CallPushesReturnAddress : Prop :=
  ∀ (nnn : Addr) (s : State), decode (0x2#4 ++ nnn) = .known (.call nnn) ∧
    (∀ h : s.sp.val < 16, exec (.call nnn) s = .next { s with
      stack := s.stack.set s.sp.val (BitVec.ofNat 16 (s.pc.toNat + 2)) h, sp := ⟨s.sp.val + 1, Nat.succ_lt_succ h⟩,
      pc := BitVec.ofNat 16 nnn.toNat, status := .ok }) ∧
    (s.sp.val = 16 → exec (.call nnn) s = .next { s with
      fault := some { code := .stackOverflow, atPc := s.pc, word := 0x2#4 ++ nnn }, status := .fatal, tone := false }) ∧
    Fatal.stackOverflow.code = 2

/-- `RET` with an empty stack raises `StackUnderflow`; otherwise it takes `pc` to `stack[sp - 1]`, which is not erased, and
`sp` down by one, unless the popped value is above 0xFFF, where it raises `AddressRange` (decision D4) and pops nothing
(spec/41_control_flow.md, spec/60_exceptions.md section 1). -/
def Obligations.ReturnPopsIntoPc : Prop :=
  decode 0x00EE#16 = .known .ret ∧
  (∀ s : State, s.sp.val = 0 → exec .ret s = raises s .stackUnderflow 0x00EE#16) ∧
  (∀ (s : State) (k : Fin 16) (a : Word), s.sp.val = k.val + 1 → s.stack[k.val] = a →
    (a.toNat ≤ 0xFFF → exec .ret s = .next { s with pc := a, sp := k.castSucc, status := .ok }) ∧
    (0x1000 ≤ a.toNat → exec .ret s = raises s .addressRange 0x00EE#16))

/-- `JP_V0` sets `pc` to `nnn + V[0]`, not reduced; above 0xFFF it raises `AddressRange` (decision D4) and `pc` is unchanged
(spec/41_control_flow.md). -/
def Obligations.JumpV0AddsRegisterZero : Prop :=
  ∀ (nnn : Addr) (s : State), decode (0xB#4 ++ nnn) = .known (.jpV0 nnn) ∧
    (nnn.toNat + (s.reg 0).toNat ≤ 0xFFF →
      exec (.jpV0 nnn) s = .next { s with pc := BitVec.ofNat 16 (nnn.toNat + (s.reg 0).toNat), status := .ok }) ∧
    (0x1000 ≤ nnn.toNat + (s.reg 0).toNat → exec (.jpV0 nnn) s = raises s .addressRange (0xB#4 ++ nnn))

/-- The four compare skips: `pc + 4` when the condition holds, else `pc + 2`, and nothing else changes; a next `pc` above
0xFFF raises `AddressRange` (decision D4). `x` and `y` are any registers, equal ones and `V[0xF]` included
(spec/41_control_flow.md). -/
def Obligations.CompareSkipsAdvancePc : Prop :=
  ∀ (x y : Reg) (nn : Byte) (s : State) (i : Instr) (cond : Prop),
    ((i = .seImm x nn ∧ (cond ↔ s.reg x = nn)) ∨ (i = .sneImm x nn ∧ (cond ↔ s.reg x ≠ nn)) ∨
      (i = .seReg x y ∧ (cond ↔ s.reg x = s.reg y)) ∨ (i = .sneReg x y ∧ (cond ↔ s.reg x ≠ s.reg y))) →
    (cond → s.pc.toNat ≤ 0xFFB → exec i s = .next { s with pc := s.pc + 4#16, status := .ok }) ∧
    (cond → 0xFFC ≤ s.pc.toNat → exec i s = raises s .addressRange (encode i)) ∧
    (¬cond → s.pc.toNat ≤ 0xFFD → exec i s = .next { s with pc := s.pc + 2#16, status := .ok }) ∧
    (¬cond → 0xFFE ≤ s.pc.toNat → exec i s = raises s .addressRange (encode i))

/-- A `CALL` followed by a `RET` comes back to the instruction after the call with the stack pointer as before; the entry
stays in the stack as a dead one, and nothing else differs (spec/41_control_flow.md, spec/95_test_vectors.md S3). -/
def Obligations.CallThenReturnResumes : Prop :=
  ∀ (nnn : Addr) (s : State), s.pc.toNat ≤ 0xFFD → ∀ h : s.sp.val < 16,
    ∃ t : State, exec (.call nnn) s = .next t ∧ t.pc.toNat = nnn.toNat ∧
      exec .ret t = .next { s with
        stack := s.stack.set s.sp.val (s.pc + 2#16) h, pc := s.pc + 2#16, status := .ok }

/-! ### Registers -/

/-- `LD_IMM`: `V[x]` takes `nn`, for every register `x`, `V[0xF]` included (R140). -/
def Obligations.LoadImmediateSetsRegister : Prop :=
  ∀ (x : Reg) (nn : Byte) (s : State), decode (0x6#4 ++ regBits x ++ nn) = .known (.ldImm x nn) ∧
    (s.pc.toNat ≤ 0xFFD →
      exec (.ldImm x nn) s = .next { s with V := s.V.set x.val nn, pc := s.pc + 2#16, status := .ok })

/-- `ADD_IMM`: `V[x]` takes `(V[x] + nn) mod 256` and `V[0xF]` is not written as a flag (R141). -/
def Obligations.AddImmediateWrapsSilently : Prop :=
  ∀ (x : Reg) (nn : Byte) (s : State), decode (0x7#4 ++ regBits x ++ nn) = .known (.addImm x nn) ∧
    (s.pc.toNat ≤ 0xFFD → exec (.addImm x nn) s = .next { s with
      V := s.V.set x.val (BitVec.ofNat 8 (((s.reg x).toNat + nn.toNat) % 256)), pc := s.pc + 2#16, status := .ok })

/-- `LD_REG`, `OR`, `AND`, `XOR`: `V[x]` takes `V[y]`, `V[x] | V[y]`, `V[x] & V[y]`, `V[x] ^ V[y]`; no flag is written (R142,
R143, R144, R145). -/
def Obligations.CopyAndLogicSetRegister : Prop :=
  ∀ (x y : Reg) (s : State),
    decode (0x8#4 ++ regBits x ++ regBits y ++ 0x0#4) = .known (.ldReg x y) ∧
    decode (0x8#4 ++ regBits x ++ regBits y ++ 0x1#4) = .known (.or x y) ∧
    decode (0x8#4 ++ regBits x ++ regBits y ++ 0x2#4) = .known (.and x y) ∧
    decode (0x8#4 ++ regBits x ++ regBits y ++ 0x3#4) = .known (.xor x y) ∧
    (s.pc.toNat ≤ 0xFFD →
      exec (.ldReg x y) s = .next { s with V := s.V.set x.val (s.reg y), pc := s.pc + 2#16, status := .ok } ∧
      exec (.or x y) s = .next { s with V := s.V.set x.val (s.reg x ||| s.reg y), pc := s.pc + 2#16, status := .ok } ∧
      exec (.and x y) s = .next { s with V := s.V.set x.val (s.reg x &&& s.reg y), pc := s.pc + 2#16, status := .ok } ∧
      exec (.xor x y) s = .next { s with V := s.V.set x.val (s.reg x ^^^ s.reg y), pc := s.pc + 2#16, status := .ok })

/-- `ADD_REG`: the carry (1 if the sum is above 255, else 0) is written to `V[0xF]`, then `V[x]` takes the sum mod 256, both
from the operands before the instruction; for `x` = 0xF the sum stays (the order is decision D9)
(spec/42_register_alu.md section 3). -/
def Obligations.AddRegisterWritesCarryThenSum : Prop :=
  ∀ (x y : Reg) (s : State), s.pc.toNat ≤ 0xFFD →
    exec (.addReg x y) s = .next { s with
      V := (s.V.set 15 (if (s.reg x).toNat + (s.reg y).toNat > 255 then 1#8 else 0#8)).set x.val
        (BitVec.ofNat 8 (((s.reg x).toNat + (s.reg y).toNat) % 256)),
      pc := s.pc + 2#16, status := .ok }

/-- `SUB` and `SUBN`: `V[0xF]` takes 1 if minuend >= subtrahend, else 0, then `V[x]` takes the difference mod 256 (`V[x] -
V[y]`, `V[y] - V[x]`), both from the operands before the instruction; for `x` = 0xF the difference stays (the order is
decision D9) (spec/42_register_alu.md section 3). -/
def Obligations.SubtractWritesNoBorrowThenDifference : Prop :=
  ∀ (x y : Reg) (s : State), s.pc.toNat ≤ 0xFFD →
    exec (.sub x y) s = .next { s with
      V := (s.V.set 15 (if (s.reg x).toNat ≥ (s.reg y).toNat then 1#8 else 0#8)).set x.val
        (BitVec.ofNat 8 ((256 + (s.reg x).toNat - (s.reg y).toNat) % 256)),
      pc := s.pc + 2#16, status := .ok } ∧
    exec (.subn x y) s = .next { s with
      V := (s.V.set 15 (if (s.reg y).toNat ≥ (s.reg x).toNat then 1#8 else 0#8)).set x.val
        (BitVec.ofNat 8 ((256 + (s.reg y).toNat - (s.reg x).toNat) % 256)),
      pc := s.pc + 2#16, status := .ok }

/-- `SHR` and `SHL`: `V[0xF]` takes the bit of `V[x]` that is shifted out, then `V[x]` takes `V[x]` shifted by one place; the
`y` field has no effect; for `x` = 0xF the shifted value stays (the order is decision D9)
(spec/42_register_alu.md section 4). -/
def Obligations.ShiftsWriteOutgoingBitThenResult : Prop :=
  ∀ (x y : Reg) (s : State), s.pc.toNat ≤ 0xFFD →
    exec (.shr x y) s = .next { s with
      V := (s.V.set 15 (BitVec.ofNat 8 ((s.reg x).toNat % 2))).set x.val (BitVec.ofNat 8 ((s.reg x).toNat / 2)),
      pc := s.pc + 2#16, status := .ok } ∧
    exec (.shl x y) s = .next { s with
      V := (s.V.set 15 (BitVec.ofNat 8 ((s.reg x).toNat / 128))).set x.val
        (BitVec.ofNat 8 ((s.reg x).toNat * 2 % 256)),
      pc := s.pc + 2#16, status := .ok }

/-- `RND`: `V[x]` takes the draw's random byte and `nn`. The byte is the free value `Config.randByte` of the model's counter
of draws, which takes one (the model's choice, assumption logs 1 and 3; spec/42_register_alu.md section 6). -/
def Obligations.RandomByteIsMasked : Prop :=
  ∀ (x : Reg) (nn : Byte) (s : State), s.pc.toNat ≤ 0xFFD →
    ∃ rand : Byte, rand = Config.randByte s.draws ∧
      exec (.rnd x nn) s = .next { s with
        V := s.V.set x.val (rand &&& nn), draws := s.draws + 1, pc := s.pc + 2#16, status := .ok } ∧
      (nn = 0x00#8 → rand &&& nn = 0x00#8) ∧ (nn = 0xFF#8 → rand &&& nn = rand)

/-- The source's property of addition: after loading `a` into `V[x]` and `b` into `V[y]`, `x` other than `y` and 0xF,
`ADD_REG` leaves `(a + b) mod 256` in `V[x]` and in `V[0xF]` 1 exactly if `a + b` > 255 (spec/42_register_alu.md section 3,
spec/95_test_vectors.md S1). -/
def Obligations.LoadLoadAddYieldsSum : Prop :=
  ∀ (x y : Reg) (a b : Byte) (s : State), x ≠ y → x ≠ 15 → s.pc.toNat ≤ 0xFF9 →
    ∃ t u v : State, exec (.ldImm x a) s = .next t ∧ exec (.ldImm y b) t = .next u ∧ exec (.addReg x y) u = .next v ∧
      (v.reg x).toNat = (a.toNat + b.toNat) % 256 ∧ (v.reg 15 = 1#8 ↔ a.toNat + b.toNat > 255) ∧
      (v.reg 15 = 0#8 ↔ a.toNat + b.toNat ≤ 255) ∧ v.pc = s.pc + 6#16

/-- An instruction of the sequential class that has no check of its own, standing at 0xFFE or above, raises `AddressRange` and
writes nothing, because its next `pc` would pass 0xFFF (decision D4; spec/40_cycle_driver.md section 1). -/
def Obligations.SequentialAtTopRaises : Prop :=
  ∀ (x y : Reg) (nn : Byte) (nnn : Addr) (s : State) (i : Instr), 0xFFE ≤ s.pc.toNat →
    i ∈ ([.cls, .ldImm x nn, .addImm x nn, .ldReg x y, .or x y, .and x y, .xor x y, .addReg x y, .sub x y, .shr x y,
      .subn x y, .shl x y, .ldI nnn, .rnd x nn, .ldVxDt x, .ldDtVx x, .ldStVx x, .addI x] : List Instr) →
    exec i s = raises s .addressRange (encode i)

/-! ### Index register and memory -/

/-- `LD_I`: `I` takes `nnn`, any of 0x000 to 0xFFF; memory is not accessed (R160). -/
def Obligations.LoadIndexSetsI : Prop :=
  ∀ (nnn : Addr) (s : State), decode (0xA#4 ++ nnn) = .known (.ldI nnn) ∧
    (s.pc.toNat ≤ 0xFFD →
      exec (.ldI nnn) s = .next { s with I := BitVec.ofNat 16 nnn.toNat, pc := s.pc + 2#16, status := .ok })

/-- `ADD_I`: `I` takes `(I + V[x]) mod 0x1000`; `V[0xF]` takes 1 if the parameter `QUIRK_FX1E_FLAG` is on and the sum is above
0xFFF, and is left alone otherwise (decision D5; spec/43_index_memory.md). -/
def Obligations.AddIndexWrapsAt4096 : Prop :=
  ∀ (x : Reg) (s : State), s.pc.toNat ≤ 0xFFD →
    exec (.addI x) s = .next { s with
      I := BitVec.ofNat 16 ((s.I.toNat + (s.reg x).toNat) % 0x1000),
      V := if s.cfg.quirkFx1eFlag = true ∧ s.I.toNat + (s.reg x).toNat > 0xFFF then s.V.set 15 1#8 else s.V,
      pc := s.pc + 2#16, status := .ok }

/-- `LD_F`: `I` takes `FONT_BASE + 5 * V[x]`; for `V[x]` above 0xF it raises `IndexRange` (decision D10) wherever it stands;
at 0xFFE or above it raises `AddressRange` (decision D4) (spec/43_index_memory.md). -/
def Obligations.LoadFontSetsGlyphAddress : Prop :=
  ∀ (x : Reg) (s : State),
    ((s.reg x).toNat ≤ 0xF → s.pc.toNat ≤ 0xFFD → exec (.ldF x) s = .next { s with
      I := BitVec.ofNat 16 (s.cfg.fontBase + 5 * (s.reg x).toNat), pc := s.pc + 2#16, status := .ok }) ∧
    ((s.reg x).toNat ≤ 0xF → 0xFFE ≤ s.pc.toNat → exec (.ldF x) s = raises s .addressRange (encode (.ldF x))) ∧
    (0x10 ≤ (s.reg x).toNat → exec (.ldF x) s = raises s .indexRange (encode (.ldF x)))

/-- `LD_B`: the hundreds, tens and units of `V[x]` go to the bytes at `I`, `I + 1`, `I + 2`, every other byte of memory and
every other element but `pc` is unchanged; with `I + 2` above 0xFFF (decision D3), or at 0xFFE or above (decision D4), it
raises `AddressRange` and stores nothing (spec/43_index_memory.md). -/
def Obligations.StoreDecimalDigits : Prop :=
  ∀ (x : Reg) (s : State),
    (s.I.toNat + 2 ≤ 0xFFF → s.pc.toNat ≤ 0xFFD → ∃ t : State, exec (.ldB x) s = .next t ∧
      t = { s with mem := t.mem, pc := s.pc + 2#16, status := .ok } ∧
      ∀ a : Nat, (t.readByte a).toNat =
        if a = s.I.toNat then (s.reg x).toNat / 100
        else if a = s.I.toNat + 1 then (s.reg x).toNat / 10 % 10
        else if a = s.I.toNat + 2 then (s.reg x).toNat % 10
        else (s.readByte a).toNat) ∧
    (s.I.toNat + 2 ≤ 0xFFF → 0xFFE ≤ s.pc.toNat → exec (.ldB x) s = raises s .addressRange (encode (.ldB x))) ∧
    (0x1000 ≤ s.I.toNat + 2 → exec (.ldB x) s = raises s .addressRange (encode (.ldB x)))

/-- `ST_REGS`: `V[0]` to `V[x]` go to the bytes `I` to `I + x`, every other byte of memory and every other element but `pc` is
unchanged; with `I + x` above 0xFFF (decision D3), or at 0xFFE or above (decision D4), it raises `AddressRange` and stores
nothing (spec/43_index_memory.md). -/
def Obligations.StoreRegisterBlock : Prop :=
  ∀ (x : Reg) (s : State),
    (s.I.toNat + x.val ≤ 0xFFF → s.pc.toNat ≤ 0xFFD → ∃ t : State, exec (.stRegs x) s = .next t ∧
      t = { s with mem := t.mem, pc := s.pc + 2#16, status := .ok } ∧
      (∀ k : Reg, k ≤ x → t.readByte (s.I.toNat + k.val) = s.reg k) ∧
      (∀ a : Nat, a < s.I.toNat ∨ s.I.toNat + x.val < a → t.readByte a = s.readByte a)) ∧
    (s.I.toNat + x.val ≤ 0xFFF → 0xFFE ≤ s.pc.toNat →
      exec (.stRegs x) s = raises s .addressRange (encode (.stRegs x))) ∧
    (0x1000 ≤ s.I.toNat + x.val → exec (.stRegs x) s = raises s .addressRange (encode (.stRegs x)))

/-- `LD_REGS`: `V[0]` to `V[x]` take the bytes `I` to `I + x`, the registers above `x` and every other element but `pc` are
unchanged; with `I + x` above 0xFFF (decision D3), or at 0xFFE or above (decision D4), it raises `AddressRange` and writes no
register (spec/43_index_memory.md). -/
def Obligations.LoadRegisterBlock : Prop :=
  ∀ (x : Reg) (s : State),
    (s.I.toNat + x.val ≤ 0xFFF → s.pc.toNat ≤ 0xFFD → ∃ t : State, exec (.ldRegs x) s = .next t ∧
      t = { s with V := t.V, pc := s.pc + 2#16, status := .ok } ∧
      (∀ k : Reg, k ≤ x → t.reg k = s.readByte (s.I.toNat + k.val)) ∧ (∀ k : Reg, x < k → t.reg k = s.reg k)) ∧
    (s.I.toNat + x.val ≤ 0xFFF → 0xFFE ≤ s.pc.toNat →
      exec (.ldRegs x) s = raises s .addressRange (encode (.ldRegs x))) ∧
    (0x1000 ≤ s.I.toNat + x.val → exec (.ldRegs x) s = raises s .addressRange (encode (.ldRegs x)))

/-- The source's round trip: after an `ST_REGS`, an `LD_REGS` with the same `x` and `I` gives `V[0]` to `V[x]` their values
back, whatever the registers hold by then (spec/43_index_memory.md, spec/95_test_vectors.md S6). -/
def Obligations.StoreThenLoadRoundTrips : Prop :=
  ∀ (x : Reg) (s : State) (clobbered : Vector Byte 16), s.I.toNat + x.val ≤ 0xFFF → s.pc.toNat ≤ 0xFFB →
    ∃ t u : State, exec (.stRegs x) s = .next t ∧ exec (.ldRegs x) { t with V := clobbered } = .next u ∧
      (∀ k : Reg, k ≤ x → u.reg k = s.reg k) ∧ (∀ k : Reg, x < k → u.reg k = clobbered[k.val]) ∧ u.I = s.I

/-- A stored byte is the byte that is fetched: an `ST_REGS` over the instruction that follows it makes the next fetch read
`V[0]` and `V[1]`, the first in the high half (spec/20_memory.md section 4, an inference the spec marks as derived). -/
def Obligations.StoreIsSeenByNextFetch : Prop :=
  ∀ (x : Reg) (s : State), 1 ≤ x.val → s.pc.toNat + 2 + x.val ≤ 0xFFF → s.I = s.pc + 2#16 →
    ∃ t : State, exec (.stRegs x) s = .next t ∧ t.pc = s.pc + 2#16 ∧
      t.fetchWord.toNat = (s.reg 0).toNat * 256 + (s.reg 1).toNat

/-! ### Display -/

/-- `CLS`: every cell of the frame buffer 0 and `redraw` set, whatever they were; `V[0xF]` and everything else but `pc` is
unchanged (R170). -/
def Obligations.ClearScreenZeroesEveryCell : Prop :=
  decode 0x00E0#16 = .known .cls ∧
  ∀ s : State, s.pc.toNat ≤ 0xFFD → ∃ t : State, exec .cls s = .next t ∧
    t = { s with fb := t.fb, redraw := true, pc := s.pc + 2#16, status := .ok } ∧
    ∀ (px : Fin 64) (py : Fin 32), t.fb.pixel px py = false

/-- `DRW`: cell (`px`, `py`) is flipped exactly when the sprite, whose row `r` is the byte at `I + r` with bit 7 leftmost and
whose top left corner is at (`V[x] mod 64`, `V[y] mod 32`), has a 1 there, with wrap-around; `V[0xF]` takes 1 if some cell
went from 1 to 0, else 0 (the 0 is decision D8, the row width and bit order the spec's general knowledge); `redraw` is set;
everything else but `pc` is unchanged (spec/44_display.md). -/
def Obligations.DrawFlipsCoveredCells : Prop :=
  ∀ (x y : Reg) (n : Nibble) (s : State), (n = 0#4 ∨ s.I.toNat + n.toNat ≤ 0x1000) → s.pc.toNat ≤ 0xFFD →
    ∃ (fb : FrameBuffer) (flag : Byte),
      exec (.drw x y n) s = .next { s with
        fb := fb, V := s.V.set 15 flag, redraw := true, pc := s.pc + 2#16, status := .ok } ∧
      (∀ (px : Fin 64) (py : Fin 32), fb.pixel px py =
        (s.fb.pixel px py ^^
          (decide ((px.val + 64 - (s.reg x).toNat % 64) % 64 < 8) &&
            decide ((py.val + 32 - (s.reg y).toNat % 32) % 32 < n.toNat) &&
            (s.readByte (s.I.toNat + (py.val + 32 - (s.reg y).toNat % 32) % 32)).getLsbD
              (7 - (px.val + 64 - (s.reg x).toNat % 64) % 64)))) ∧
      ((∃ (px : Fin 64) (py : Fin 32), s.fb.pixel px py = true ∧ fb.pixel px py = false) → flag = 1#8) ∧
      ((¬∃ (px : Fin 64) (py : Fin 32), s.fb.pixel px py = true ∧ fb.pixel px py = false) → flag = 0#8)

/-- `DRW` with a sprite byte above 0xFFF (decision D3), or at 0xFFE or above (decision D4), raises `AddressRange`: no cell, not
`V[0xF]` and not `redraw` is written; with `n` = 0 no byte is read and only the second case applies
(spec/44_display.md). -/
def Obligations.DrawOutOfRangeRaises : Prop :=
  ∀ (x y : Reg) (n : Nibble) (s : State),
    (n ≠ 0#4 → 0x1001 ≤ s.I.toNat + n.toNat →
      exec (.drw x y n) s = raises s .addressRange (encode (.drw x y n))) ∧
    ((n = 0#4 ∨ s.I.toNat + n.toNat ≤ 0x1000) → 0xFFE ≤ s.pc.toNat →
      exec (.drw x y n) s = raises s .addressRange (encode (.drw x y n)))

/-- The source's property of drawing twice: a second `DRW` of the same sprite bytes at the same coordinates on the drawn
buffer restores it, and the second pass reports a collision exactly if the first lit a cell
(spec/44_display.md, spec/95_test_vectors.md S7). -/
def Obligations.DrawingTwiceRestores : Prop :=
  ∀ (x y : Reg) (n : Nibble) (s s' t u : State), exec (.drw x y n) s = .next t → t.fault = none →
    s'.fb = t.fb → s'.mem = s.mem → s'.cfg = s.cfg → s'.I = s.I → s'.reg x = s.reg x → s'.reg y = s.reg y →
    exec (.drw x y n) s' = .next u → u.fault = none →
    u.fb = s.fb ∧
      (u.reg 15 = 1#8 ↔ ∃ (px : Fin 64) (py : Fin 32), s.fb.pixel px py = false ∧ t.fb.pixel px py = true)

/-! ### Keypad and timers -/

/-- `SKP` and `SKNP`: `pc + 4` if key `V[x]` is pressed, not pressed, else `pc + 2`; a next `pc` above 0xFFF raises
`AddressRange` (decision D4); `V[x]` above 0xF raises `IndexRange` (decision D10), wherever the instruction stands
(spec/45_keypad_timers.md section 1). -/
def Obligations.KeySkipsFollowKeyState : Prop :=
  ∀ (x : Reg) (k : Fin 16) (s : State) (i : Instr) (pressed : Bool),
    ((i = .skp x ∧ pressed = true) ∨ (i = .sknp x ∧ pressed = false)) →
    ((s.reg x).toNat = k.val →
      (s.keys[k.val] = pressed → s.pc.toNat ≤ 0xFFB → exec i s = .next { s with pc := s.pc + 4#16, status := .ok }) ∧
      (s.keys[k.val] = pressed → 0xFFC ≤ s.pc.toNat → exec i s = raises s .addressRange (encode i)) ∧
      (s.keys[k.val] ≠ pressed → s.pc.toNat ≤ 0xFFD → exec i s = .next { s with pc := s.pc + 2#16, status := .ok }) ∧
      (s.keys[k.val] ≠ pressed → 0xFFE ≤ s.pc.toNat → exec i s = raises s .addressRange (encode i))) ∧
    (0x10 ≤ (s.reg x).toNat → exec i s = raises s .indexRange (encode i))

/-- `LD_VX_K`: with no key pressed only `status` changes, to `WAITING`; otherwise `V[x]` takes the number of the lowest pressed
key (decision D11), unless it stands at 0xFFE or above, where it raises `AddressRange` (decision D4)
(spec/45_keypad_timers.md section 1). -/
def Obligations.WaitForKeyTakesLowest : Prop :=
  ∀ (x : Reg) (s : State),
    ((∀ k : Fin 16, s.keys[k.val] = false) → exec (.ldVxK x) s = .next { s with status := .waiting }) ∧
    (∀ k : Fin 16, s.keys[k.val] = true → (∀ j : Fin 16, j < k → s.keys[j.val] = false) →
      (s.pc.toNat ≤ 0xFFD → exec (.ldVxK x) s = .next { s with
        V := s.V.set x.val (BitVec.ofNat 8 k.val), pc := s.pc + 2#16, status := .ok }) ∧
      (0xFFE ≤ s.pc.toNat → exec (.ldVxK x) s = raises s .addressRange (encode (.ldVxK x))))

/-- `LD_VX_DT`: `V[x]` takes `DT` as it is before this cycle's tick, which follows (spec/45_keypad_timers.md section 2). -/
def Obligations.ReadDelayTimerBeforeTick : Prop :=
  ∀ (x : Reg) (s : State), s.pc.toNat ≤ 0xFFD →
    exec (.ldVxDt x) s = .next { s with V := s.V.set x.val s.DT, pc := s.pc + 2#16, status := .ok } ∧
    (s.fault = none → decode s.fetchWord = .known (.ldVxDt x) → step s = .next { s with
      V := s.V.set x.val s.DT, DT := BitVec.ofNat 8 (s.DT.toNat - 1), ST := BitVec.ofNat 8 (s.ST.toNat - 1),
      tone := decide (s.ST.toNat = 1), pc := s.pc + 2#16, status := .ok })

/-- `LD_DT_VX`: `DT` takes `V[x]`; the tick of the same cycle follows, so the cycle ends with `V[x] - 1`, or 0 for 0 (R184). -/
def Obligations.SetDelayTimerThenTick : Prop :=
  ∀ (x : Reg) (s : State), decode (0xF#4 ++ regBits x ++ 0x15#8) = .known (.ldDtVx x) ∧ (s.pc.toNat ≤ 0xFFD →
    exec (.ldDtVx x) s = .next { s with DT := s.reg x, pc := s.pc + 2#16, status := .ok } ∧
    (s.fault = none → decode s.fetchWord = .known (.ldDtVx x) → step s = .next { s with
      DT := BitVec.ofNat 8 ((s.reg x).toNat - 1), ST := BitVec.ofNat 8 (s.ST.toNat - 1),
      tone := decide (s.ST.toNat = 1), pc := s.pc + 2#16, status := .ok }))

/-- `LD_ST_VX`: `ST` takes `V[x]`; the tick of the same cycle follows, so the cycle ends with `V[x] - 1`, or 0 for 0, and
gives a tone exactly for `V[x]` = 1 (R185). -/
def Obligations.SetSoundTimerThenTick : Prop :=
  ∀ (x : Reg) (s : State), decode (0xF#4 ++ regBits x ++ 0x18#8) = .known (.ldStVx x) ∧ (s.pc.toNat ≤ 0xFFD →
    exec (.ldStVx x) s = .next { s with ST := s.reg x, pc := s.pc + 2#16, status := .ok } ∧
    (s.fault = none → decode s.fetchWord = .known (.ldStVx x) → step s = .next { s with
      ST := BitVec.ofNat 8 ((s.reg x).toNat - 1), DT := BitVec.ofNat 8 (s.DT.toNat - 1),
      tone := decide ((s.reg x).toNat = 1), pc := s.pc + 2#16, status := .ok }))

/-! ### Reset and the host -/

/-- The reset state with the empty ROM: the values of spec/10_state.md section 10 (those of `V`, `I`, `fb`, `redraw`, `keys` and
the stack entries are decision D2, that of `fault` decision D14, the font decisions D6 and D7), and memory reads 0x00 but for
the font at 0x050 to 0x09F. `status`, `tone` and `draws` are left out: their values are the model's choice. -/
def Obligations.ResetLeavesSpecifiedState : Prop :=
  State.reset.pc = 0x200#16 ∧ State.reset.I = 0#16 ∧ State.reset.sp = 0 ∧ State.reset.DT = 0#8 ∧
  State.reset.ST = 0#8 ∧ State.reset.redraw = false ∧ State.reset.fault = none ∧
  (∀ x : Reg, State.reset.reg x = 0#8) ∧ (∀ k : Fin 16, State.reset.stack[k.val] = 0#16) ∧
  (∀ k : Fin 16, State.reset.keys[k.val] = false) ∧
  (∀ (px : Fin 64) (py : Fin 32), State.reset.fb.pixel px py = false) ∧
  (∀ k : Fin 80, State.reset.readByte (0x050 + k.val) = defaultFont[k.val]) ∧
  (∀ a : Nat, a < 0x050 ∨ 0x0A0 ≤ a → State.reset.readByte a = 0x00#8)

/-- `Reset(rom)`: for an image of at most 3584 bytes the state is the reset state (`ResetLeavesSpecifiedState` gives its
values: `V`, `I`, `stack`, `sp`, `DT`, `ST`, `fb`, `redraw`, `keys` zero or false, `pc` 0x200, no `fault`) with the parameters it
was given and memory the image at 0x200 and up, the font at `FONT_BASE`, 0x00 elsewhere; a longer image gives `RomLoadError` and
no state (decisions D2, D6, D7, D14 and D20; spec/70_reset_and_hazards.md section 1). That `status` and `tone` are those of the
reset state, and that the counter `draws` is the one handed over, is the model's choice (assumption logs 3 and 4). -/
def Obligations.BootLoadsRomImage : Prop :=
  ∀ (c : Config) (draws : Nat) (rom : List Byte), c.wf = true →
    (rom.length ≤ 3584 → ∃ s : State, State.boot c draws rom = .ok s ∧
      s = { State.reset with mem := s.mem, draws := draws, cfg := c } ∧
      (∀ (k : Nat) (h : k < rom.length), s.readByte (0x200 + k) = rom[k]) ∧
      (∀ k : Fin 80, s.readByte (c.fontBase + k.val) = c.font[k.val]) ∧
      (∀ a : Nat, (a < c.fontBase ∨ c.fontBase + 80 ≤ a) → (a < 0x200 ∨ 0x200 + rom.length ≤ a) →
        s.readByte a = 0x00#8)) ∧
    (3585 ≤ rom.length → State.boot c draws rom = .error (.tooLong rom.length))

/-- The host's move `Reset(rom)`, from every state, a halted one included, is `State.boot` with the state's parameters: with an
image that fits, every element but those parameters and memory is the reset state's, the halt latch open; with a longer image
there is no state (spec/70_reset_and_hazards.md sections 1 and 3, spec/60_exceptions.md section 3; decisions D2, D14 and D20).
That the counter `draws` is kept, and the reset values of `status` and `tone`, are the model's choice (assumption logs 3
and 4). -/
def Obligations.HostResetBootsFromAnyState : Prop :=
  ∀ (s : State) (rom : List Byte),
    HostMove.apply (.reset rom) s = State.boot s.cfg s.draws rom ∧
    (rom.length ≤ 3584 → ∃ t : State, HostMove.apply (.reset rom) s = .ok t ∧
      t = { State.reset with mem := t.mem, draws := s.draws, cfg := s.cfg } ∧ t.fault = none ∧
      ∀ (k : Nat) (h : k < rom.length), t.readByte (0x200 + k) = rom[k]) ∧
    (3585 ≤ rom.length → HostMove.apply (.reset rom) s = .error (.tooLong rom.length))

/-- The host's moves other than `Reset`: pressing or releasing a key changes that key's flag only, clearing `redraw` changes
`redraw` only (decision D22; spec/70_reset_and_hazards.md section 3). -/
def Obligations.HostMovesTouchOnlyTheirFlag : Prop :=
  ∀ (s : State) (k : Fin 16),
    (∃ t : State, HostMove.apply (.press k) s = .ok t ∧ t = { s with keys := t.keys } ∧ t.keys[k.val] = true ∧
      ∀ j : Fin 16, j ≠ k → t.keys[j.val] = s.keys[j.val]) ∧
    (∃ t : State, HostMove.apply (.release k) s = .ok t ∧ t = { s with keys := t.keys } ∧ t.keys[k.val] = false ∧
      ∀ j : Fin 16, j ≠ k → t.keys[j.val] = s.keys[j.val]) ∧
    HostMove.apply .clearRedraw s = .ok { s with redraw := false }
end

