-- ==== Sys2Proof/Laws/Display.lean ====
section
/-! SUPPORT. The drawing loops of `DRW` in closed form: which cell a sprite covers, what a cell is afterwards, when there is
a collision (spec/44_display.md rules R171 to R173). -/

namespace Sys2Proof.Machine

/-! ### One cell -/

theorem FrameBuffer.pixel_toggle (f : FrameBuffer) (px qx : Fin 64) (py qy : Fin 32) :
    (f.toggle px py).pixel qx qy = (f.pixel qx qy ^^ (decide (qx = px) && decide (qy = py))) := by
  unfold FrameBuffer.pixel FrameBuffer.toggle
  by_cases hy : qy = py
  · subst hy
    simp [Fin.ext_iff, eq_comm]
  · have hne : py.val ≠ qy.val := fun h => hy (Fin.ext h.symm)
    rw [Vector.getElem_set_ne _ _ hne]
    simp [hy]

@[simp] theorem FrameBuffer.pixel_clear (px : Fin 64) (py : Fin 32) : FrameBuffer.clear.pixel px py = false := by
  simp [FrameBuffer.clear, FrameBuffer.pixel]

/-- Frame buffers with the same cells are the same. -/
theorem FrameBuffer.ext_pixel {f g : FrameBuffer} (h : ∀ px py, f.pixel px py = g.pixel px py) : f = g := by
  apply Vector.ext
  intro py hpy
  apply BitVec.eq_of_getLsbD_eq
  intro px hpx
  exact h ⟨px, hpx⟩ ⟨py, hpy⟩

/-! ### One row -/

/-- The column of the sprite that falls on column `px` of the buffer. -/
def spriteColumn (x0 : Nat) (px : Fin 64) : Nat := (px.val + 64 - x0 % 64) % 64

/-- The first `k` columns of the row byte `b` at `x0` cover column `px` with a 1. -/
def rowCovers (k x0 : Nat) (b : Byte) (px : Fin 64) : Bool :=
  decide (spriteColumn x0 px < k) && b.getLsbD (7 - spriteColumn x0 px)

theorem spriteColumn_eq_iff (x0 k : Nat) (px : Fin 64) (hk : k < 64) :
    spriteColumn x0 px = k ↔ px = wrapColumn (x0 + k) := by
  have := px.isLt
  simp only [spriteColumn, Fin.ext_iff, wrapColumn]
  omega

theorem rowCovers_succ (k x0 : Nat) (b : Byte) (px : Fin 64) (hk : k < 64) :
    rowCovers (k + 1) x0 b px =
      (rowCovers k x0 b px || (decide (px = wrapColumn (x0 + k)) && b.getLsbD (7 - k))) := by
  have hcol := spriteColumn_eq_iff x0 k px hk
  unfold rowCovers
  by_cases heq : spriteColumn x0 px = k
  · simp [heq, ← hcol]
  · have hlt : (spriteColumn x0 px < k + 1) = (spriteColumn x0 px < k) := propext (by omega)
    simp [hlt, ← hcol, heq]

/-- The first `k` columns of a row, as `Drawing.row` draws them. -/
def Drawing.rowPrefix (d : Drawing) (x0 : Nat) (py : Fin 32) (b : Byte) (k : Nat) : Drawing :=
  (List.range k).foldl (fun d c => if b.getLsbD (7 - c) then d.dot (wrapColumn (x0 + c)) py else d) d

theorem Drawing.rowPrefix_succ (d : Drawing) (x0 : Nat) (py : Fin 32) (b : Byte) (k : Nat) :
    d.rowPrefix x0 py b (k + 1) =
      if b.getLsbD (7 - k) then (d.rowPrefix x0 py b k).dot (wrapColumn (x0 + k)) py else d.rowPrefix x0 py b k := by
  simp [Drawing.rowPrefix, List.range_succ]

theorem Drawing.rowPrefix_pixel (d : Drawing) (x0 : Nat) (py : Fin 32) (b : Byte) (k : Nat) (hk : k ≤ 64)
    (qx : Fin 64) (qy : Fin 32) :
    (d.rowPrefix x0 py b k).1.pixel qx qy = (d.1.pixel qx qy ^^ (decide (qy = py) && rowCovers k x0 b qx)) := by
  induction k with
  | zero => simp [Drawing.rowPrefix, rowCovers]
  | succ k ih =>
    have hcol := spriteColumn_eq_iff x0 k qx (by omega)
    have hcov := rowCovers_succ k x0 b qx (by omega)
    rw [Drawing.rowPrefix_succ, hcov]
    by_cases hb : b.getLsbD (7 - k) = true
    · rw [if_pos hb]
      simp only [Drawing.dot, FrameBuffer.pixel_toggle, ih (by omega)]
      by_cases hx : qx = wrapColumn (x0 + k)
      · have hnot : rowCovers k x0 b qx = false := by simp [rowCovers, hcol.mpr hx]
        simp [hx, hb] at hnot ⊢
        simp [hnot]
      · simp [hx]
    · rw [if_neg hb, ih (by omega)]
      simp [hb]

theorem Drawing.rowPrefix_collision (d : Drawing) (x0 : Nat) (py : Fin 32) (b : Byte) (k : Nat) (hk : k ≤ 64) :
    (d.rowPrefix x0 py b k).2 = true ↔
      d.2 = true ∨ ∃ qx : Fin 64, rowCovers k x0 b qx = true ∧ d.1.pixel qx py = true := by
  induction k with
  | zero => simp [Drawing.rowPrefix, rowCovers]
  | succ k ih =>
    have hprev := Drawing.rowPrefix_pixel d x0 py b k (by omega) (wrapColumn (x0 + k)) py
    have hcol := (spriteColumn_eq_iff x0 k (wrapColumn (x0 + k)) (by omega)).mpr rfl
    have hnot : rowCovers k x0 b (wrapColumn (x0 + k)) = false := by simp [rowCovers, hcol]
    rw [hnot] at hprev
    rw [Drawing.rowPrefix_succ]
    by_cases hb : b.getLsbD (7 - k) = true
    · rw [if_pos hb]
      simp only [Drawing.dot, hprev, Bool.or_eq_true, ih (by omega)]
      constructor
      · rintro ((hd | ⟨qx, hc, hp⟩) | hp)
        · exact .inl hd
        · exact .inr ⟨qx, by rw [rowCovers_succ k x0 b qx (by omega), hc]; rfl, hp⟩
        · exact .inr ⟨wrapColumn (x0 + k), by rw [rowCovers_succ k x0 b _ (by omega)]; simp [hb], by simpa using hp⟩
      · rintro (hd | ⟨qx, hc, hp⟩)
        · exact .inl (.inl hd)
        · rw [rowCovers_succ k x0 b qx (by omega)] at hc
          rcases Bool.or_eq_true _ _ ▸ hc with hold | hnew
          · exact .inl (.inr ⟨qx, hold, hp⟩)
          · have hx : qx = wrapColumn (x0 + k) := of_decide_eq_true (Bool.and_eq_true _ _ ▸ hnew).1
            subst hx
            exact .inr (by simpa using hp)
    · rw [if_neg hb, ih (by omega)]
      simp only [rowCovers_succ k x0 b _ (show k < 64 by omega), hb, Bool.and_false, Bool.or_false]

theorem Drawing.row_eq_prefix (d : Drawing) (x0 : Nat) (py : Fin 32) (b : Byte) :
    d.row x0 py b = d.rowPrefix x0 py b 8 := rfl

/-! ### The whole sprite -/

/-- The sprite row that falls on row `py` of the buffer. -/
def spriteRow (y0 : Nat) (py : Fin 32) : Nat := (py.val + 32 - y0 % 32) % 32

/-- The sprite `bs` at (`x0`, `y0`) has a 1 on cell (`px`, `py`), with wrap-around (R171, R172). -/
def spriteCovers (x0 y0 : Nat) (bs : List Byte) (px : Fin 64) (py : Fin 32) : Bool :=
  match bs[spriteRow y0 py]? with
  | some b => rowCovers 8 x0 b px
  | none => false

theorem spriteRow_zero_iff (y0 : Nat) (py : Fin 32) : spriteRow y0 py = 0 ↔ py = wrapRow y0 := by
  have := py.isLt
  simp only [spriteRow, Fin.ext_iff, wrapRow]
  omega

theorem spriteRow_succ (y0 : Nat) (py : Fin 32) (h : spriteRow y0 py ≠ 0) :
    spriteRow y0 py = spriteRow (y0 + 1) py + 1 := by
  have := py.isLt
  simp only [spriteRow] at h ⊢
  omega

theorem spriteRow_next (y0 : Nat) (py : Fin 32) (h : spriteRow y0 py = 0) : spriteRow (y0 + 1) py = 31 := by
  have := py.isLt
  simp only [spriteRow] at h ⊢
  omega

theorem spriteCovers_cons (x0 y0 : Nat) (b : Byte) (bs : List Byte) (hlen : bs.length < 32) (px : Fin 64) (py : Fin 32) :
    spriteCovers x0 y0 (b :: bs) px py =
      ((decide (py = wrapRow y0) && rowCovers 8 x0 b px) ^^ spriteCovers x0 (y0 + 1) bs px py) := by
  have hzero := spriteRow_zero_iff y0 py
  unfold spriteCovers
  by_cases h : spriteRow y0 py = 0
  · have hnext : bs[spriteRow (y0 + 1) py]? = none := by
      rw [spriteRow_next y0 py h]
      exact List.getElem?_eq_none (by omega)
    simp [h, hnext, ← hzero]
  · rw [spriteRow_succ y0 py h]
    simp [← hzero, h]

theorem Drawing.row_pixel (d : Drawing) (x0 : Nat) (py : Fin 32) (b : Byte) (qx : Fin 64) (qy : Fin 32) :
    (d.row x0 py b).1.pixel qx qy = (d.1.pixel qx qy ^^ (decide (qy = py) && rowCovers 8 x0 b qx)) :=
  Drawing.rowPrefix_pixel d x0 py b 8 (by omega) qx qy

/-- A cell after a sprite is drawn: the old cell xor the sprite's bit there. -/
theorem Drawing.rows_pixel (x0 : Nat) (bs : List Byte) : ∀ (d : Drawing) (y0 : Nat), bs.length ≤ 32 →
    ∀ (qx : Fin 64) (qy : Fin 32),
      (d.rows x0 y0 bs).1.pixel qx qy = (d.1.pixel qx qy ^^ spriteCovers x0 y0 bs qx qy) := by
  induction bs with
  | nil => intro d y0 _ qx qy; simp [Drawing.rows, spriteCovers]
  | cons b bs ih =>
    intro d y0 hlen qx qy
    rw [List.length_cons] at hlen
    rw [Drawing.rows, ih _ _ (by omega), Drawing.row_pixel, spriteCovers_cons x0 y0 b bs (by omega), Bool.xor_assoc]

/-- There is a collision after a sprite is drawn exactly when there was one before, or the sprite covers a cell that was 1. -/
theorem Drawing.rows_collision (x0 : Nat) (bs : List Byte) : ∀ (d : Drawing) (y0 : Nat), bs.length ≤ 32 →
    ((d.rows x0 y0 bs).2 = true ↔ d.2 = true ∨
      ∃ (qx : Fin 64) (qy : Fin 32), spriteCovers x0 y0 bs qx qy = true ∧ d.1.pixel qx qy = true) := by
  induction bs with
  | nil => intro d y0 _; simp [Drawing.rows, spriteCovers]
  | cons b bs ih =>
    intro d y0 hlen
    rw [List.length_cons] at hlen
    have hrow := Drawing.rowPrefix_collision d x0 (wrapRow y0) b 8 (by omega)
    rw [← Drawing.row_eq_prefix] at hrow
    -- the rows below touch other cells than the first row
    have hapart : ∀ (qx : Fin 64) (qy : Fin 32), spriteCovers x0 (y0 + 1) bs qx qy = true → qy ≠ wrapRow y0 := by
      intro qx qy hc hy
      have hnext := spriteRow_next y0 qy ((spriteRow_zero_iff y0 qy).mpr hy)
      rw [spriteCovers, hnext, List.getElem?_eq_none (by omega)] at hc
      exact absurd hc (by simp)
    rw [Drawing.rows, ih _ _ (by omega), hrow]
    constructor
    · rintro ((hd | ⟨qx, hc, hp⟩) | ⟨qx, qy, hc, hp⟩)
      · exact .inl hd
      · refine .inr ⟨qx, wrapRow y0, ?_, hp⟩
        rw [spriteCovers_cons x0 y0 b bs (by omega)]
        cases hlow : spriteCovers x0 (y0 + 1) bs qx (wrapRow y0) with
        | false => simp [hc]
        | true => exact absurd rfl (hapart _ _ hlow)
      · have hy := hapart qx qy hc
        refine .inr ⟨qx, qy, ?_, ?_⟩
        · rw [spriteCovers_cons x0 y0 b bs (by omega), hc]
          simp [hy]
        · rw [Drawing.row_pixel] at hp
          simpa [hy] using hp
    · rintro (hd | ⟨qx, qy, hc, hp⟩)
      · exact .inl (.inl hd)
      · rw [spriteCovers_cons x0 y0 b bs (by omega)] at hc
        by_cases hy : qy = wrapRow y0
        · cases hlow : spriteCovers x0 (y0 + 1) bs qx qy with
          | true => exact absurd hy (hapart _ _ hlow)
          | false =>
            rw [hlow] at hc
            exact .inl (.inr ⟨qx, by simpa [hy] using hc, hy ▸ hp⟩)
        · refine .inr ⟨qx, qy, by simpa [hy] using hc, ?_⟩
          rw [Drawing.row_pixel]
          simpa [hy] using hp

@[simp] theorem State.spriteBytes_length (s : State) (n : Nat) : (s.spriteBytes n).length = n := by
  simp [State.spriteBytes]

theorem State.spriteBytes_get (s : State) (n r : Nat) :
    (s.spriteBytes n)[r]? = if r < n then some (s.readByte (s.I.toNat + r)) else none := by
  simp only [State.spriteBytes, List.getElem?_map]
  split <;> simp_all

end Sys2Proof.Machine
end

