-- ==== Sys2Proof/Laws/Encoding.lean ====
section
/-! SUPPORT. The fields of a word laid out in each format, the fixed bits that the opcode map's masks keep, and the bytes of
a word: the lemmas that proofs about `decode` and `encode` cite. -/

namespace Sys2Proof

/-! ### Words as numbers -/

theorem append_toNat {m n : Nat} (a : BitVec m) (b : BitVec n) : (a ++ b).toNat = a.toNat * 2 ^ n + b.toNat := by
  rw [BitVec.toNat_append, ← Nat.shiftLeft_add_eq_or_of_lt b.isLt, Nat.shiftLeft_eq]

theorem formatA_toNat (f : Nibble) (nnn : Addr) : (formatA f nnn).toNat = f.toNat * 4096 + nnn.toNat :=
  append_toNat f nnn

theorem formatXI_toNat (f x : Nibble) (nn : Byte) :
    (formatXI f x nn).toNat = f.toNat * 4096 + x.toNat * 256 + nn.toNat := by
  have outer := append_toNat (f ++ x) nn
  have inner := append_toNat f x
  have whole : (formatXI f x nn).toNat = (f ++ x ++ nn).toNat := rfl
  omega

theorem formatXY_toNat (f x y n : Nibble) :
    (formatXY f x y n).toNat = f.toNat * 4096 + x.toNat * 256 + y.toNat * 16 + n.toNat := by
  have outer := append_toNat (f ++ x ++ y) n
  have middle := append_toNat (f ++ x) y
  have inner := append_toNat f x
  have whole : (formatXY f x y n).toNat = (f ++ x ++ y ++ n).toNat := rfl
  omega

theorem wordOfBytes_toNat (a b : Byte) : (wordOfBytes a b).toNat = a.toNat * 256 + b.toNat := append_toNat a b

/-! ### Fields as numbers -/

theorem fieldFamily_toNat (w : Word) : (fieldFamily w).toNat = w.toNat / 4096 := by
  have := w.isLt
  simp [fieldFamily, Nat.shiftRight_eq_div_pow]
  omega

theorem fieldX_toNat (w : Word) : (fieldX w).toNat = w.toNat / 256 % 16 := by
  simp [fieldX, Nat.shiftRight_eq_div_pow]

theorem fieldY_toNat (w : Word) : (fieldY w).toNat = w.toNat / 16 % 16 := by
  simp [fieldY, Nat.shiftRight_eq_div_pow]

theorem fieldN_toNat (w : Word) : (fieldN w).toNat = w.toNat % 16 := by
  simp [fieldN]

theorem fieldNN_toNat (w : Word) : (fieldNN w).toNat = w.toNat % 256 := by
  simp [fieldNN]

theorem fieldNNN_toNat (w : Word) : (fieldNNN w).toNat = w.toNat % 4096 := by
  simp [fieldNNN]

/-! ### The fields of each format (R71, R72) -/

@[simp] theorem fieldFamily_formatA (f : Nibble) (nnn : Addr) : fieldFamily (formatA f nnn) = f := by
  apply BitVec.eq_of_toNat_eq
  rw [fieldFamily_toNat, formatA_toNat]
  omega

@[simp] theorem fieldNNN_formatA (f : Nibble) (nnn : Addr) : fieldNNN (formatA f nnn) = nnn := by
  apply BitVec.eq_of_toNat_eq
  rw [fieldNNN_toNat, formatA_toNat]
  omega

@[simp] theorem fieldFamily_formatXI (f x : Nibble) (nn : Byte) : fieldFamily (formatXI f x nn) = f := by
  apply BitVec.eq_of_toNat_eq
  rw [fieldFamily_toNat, formatXI_toNat]
  omega

@[simp] theorem fieldX_formatXI (f x : Nibble) (nn : Byte) : fieldX (formatXI f x nn) = x := by
  apply BitVec.eq_of_toNat_eq
  rw [fieldX_toNat, formatXI_toNat]
  omega

@[simp] theorem fieldNN_formatXI (f x : Nibble) (nn : Byte) : fieldNN (formatXI f x nn) = nn := by
  apply BitVec.eq_of_toNat_eq
  rw [fieldNN_toNat, formatXI_toNat]
  omega

@[simp] theorem fieldFamily_formatXY (f x y n : Nibble) : fieldFamily (formatXY f x y n) = f := by
  apply BitVec.eq_of_toNat_eq
  rw [fieldFamily_toNat, formatXY_toNat]
  omega

@[simp] theorem fieldX_formatXY (f x y n : Nibble) : fieldX (formatXY f x y n) = x := by
  apply BitVec.eq_of_toNat_eq
  rw [fieldX_toNat, formatXY_toNat]
  omega

@[simp] theorem fieldY_formatXY (f x y n : Nibble) : fieldY (formatXY f x y n) = y := by
  apply BitVec.eq_of_toNat_eq
  rw [fieldY_toNat, formatXY_toNat]
  omega

@[simp] theorem fieldN_formatXY (f x y n : Nibble) : fieldN (formatXY f x y n) = n := by
  apply BitVec.eq_of_toNat_eq
  rw [fieldN_toNat, formatXY_toNat]
  omega

@[simp] theorem regOf_regBits (r : Reg) : regOf (regBits r) = r := rfl

@[simp] theorem regBits_regOf (b : Nibble) : regBits (regOf b) = b := rfl

/-! ### A word is the layout of its fields -/

theorem word_eq_formatA (w : Word) : w = formatA (fieldFamily w) (fieldNNN w) := by
  apply BitVec.eq_of_toNat_eq
  rw [formatA_toNat, fieldFamily_toNat, fieldNNN_toNat]
  omega

theorem word_eq_formatXI (w : Word) : w = formatXI (fieldFamily w) (fieldX w) (fieldNN w) := by
  apply BitVec.eq_of_toNat_eq
  rw [formatXI_toNat, fieldFamily_toNat, fieldX_toNat, fieldNN_toNat]
  omega

theorem word_eq_formatXY (w : Word) : w = formatXY (fieldFamily w) (fieldX w) (fieldY w) (fieldN w) := by
  apply BitVec.eq_of_toNat_eq
  rw [formatXY_toNat, fieldFamily_toNat, fieldX_toNat, fieldY_toNat, fieldN_toNat]
  omega

/-! ### The bits that the masks of the opcode map keep (R76) -/

theorem append_and {m n : Nat} (a c : BitVec m) (b d : BitVec n) : (a ++ b) &&& (c ++ d) = (a &&& c) ++ (b &&& d) := by
  ext i hi
  simp only [BitVec.getElem_and, BitVec.getElem_append]
  split <;> simp

theorem nibble_and_F (f : Nibble) : f &&& 0xF#4 = f := BitVec.and_allOnes

theorem byte_and_FF (nn : Byte) : nn &&& 0xFF#8 = nn := BitVec.and_allOnes

theorem formatA_and (f g : Nibble) (a b : Addr) : formatA f a &&& formatA g b = formatA (f &&& g) (a &&& b) :=
  append_and f g a b

theorem formatXI_and (f g x y : Nibble) (a b : Byte) :
    formatXI f x a &&& formatXI g y b = formatXI (f &&& g) (x &&& y) (a &&& b) :=
  (append_and (f ++ x) (g ++ y) a b).trans (by rw [append_and]; rfl)

theorem formatXY_and (f g x x' y y' n n' : Nibble) :
    formatXY f x y n &&& formatXY g x' y' n' = formatXY (f &&& g) (x &&& x') (y &&& y') (n &&& n') :=
  (append_and (f ++ x ++ y) (g ++ x' ++ y') n n').trans (by rw [append_and, append_and]; rfl)

theorem formatA_maskF000 (f : Nibble) (nnn : Addr) : formatA f nnn &&& 0xF000#16 = formatA f 0#12 := by
  have mask : (0xF000#16 : Word) = formatA 0xF#4 0#12 := rfl
  rw [mask, formatA_and, nibble_and_F, BitVec.and_zero]

theorem formatXI_maskF000 (f x : Nibble) (nn : Byte) : formatXI f x nn &&& 0xF000#16 = formatXI f 0#4 0#8 := by
  have mask : (0xF000#16 : Word) = formatXI 0xF#4 0#4 0#8 := rfl
  rw [mask, formatXI_and, nibble_and_F, BitVec.and_zero, BitVec.and_zero]

theorem formatXI_maskF0FF (f x : Nibble) (nn : Byte) : formatXI f x nn &&& 0xF0FF#16 = formatXI f 0#4 nn := by
  have mask : (0xF0FF#16 : Word) = formatXI 0xF#4 0#4 0xFF#8 := rfl
  rw [mask, formatXI_and, nibble_and_F, byte_and_FF, BitVec.and_zero]

theorem formatXY_maskF00F (f x y n : Nibble) : formatXY f x y n &&& 0xF00F#16 = formatXY f 0#4 0#4 n := by
  have mask : (0xF00F#16 : Word) = formatXY 0xF#4 0#4 0#4 0xF#4 := rfl
  rw [mask, formatXY_and, nibble_and_F, nibble_and_F, BitVec.and_zero, BitVec.and_zero]

theorem formatXY_maskF000 (f x y n : Nibble) : formatXY f x y n &&& 0xF000#16 = formatXY f 0#4 0#4 0#4 := by
  have mask : (0xF000#16 : Word) = formatXY 0xF#4 0#4 0#4 0#4 := rfl
  rw [mask, formatXY_and, nibble_and_F, BitVec.and_zero, BitVec.and_zero, BitVec.and_zero]

/-! ### The bytes of a word (R54) -/

@[simp] theorem wordOfBytes_bytes (w : Word) : wordOfBytes (firstByte w) (secondByte w) = w := by
  apply BitVec.eq_of_toNat_eq
  rw [wordOfBytes_toNat]
  have := w.isLt
  simp [firstByte, secondByte, Nat.shiftRight_eq_div_pow]
  omega

@[simp] theorem firstByte_wordOfBytes (a b : Byte) : firstByte (wordOfBytes a b) = a := by
  apply BitVec.eq_of_toNat_eq
  simp [firstByte, wordOfBytes_toNat, Nat.shiftRight_eq_div_pow]
  omega

@[simp] theorem secondByte_wordOfBytes (a b : Byte) : secondByte (wordOfBytes a b) = b := by
  apply BitVec.eq_of_toNat_eq
  simp [secondByte, wordOfBytes_toNat]
  omega

end Sys2Proof
end

