-- ==== Sys2Proof/Laws/Memory.lean ====
section
/-! SUPPORT. Memory: reading after storing, and every store keeps the canonical form (spec/20_memory.md rules R57, R59, R61). -/

namespace Sys2Proof.Machine

/-! ### Reading -/

@[simp] theorem Memory.read_nil (c : Config) (a : Nat) : Memory.read c [] a = Memory.unlisted c a := rfl

theorem Memory.read_filter_other (c : Config) (m : Memory) {a b : Nat} (h : b ≠ a) :
    Memory.read c (m.filter fun cell => cell.1 != a) b = Memory.read c m b := by
  induction m with
  | nil => rfl
  | cons cell rest ih =>
    obtain ⟨k, v⟩ := cell
    by_cases hk : k = a
    · subst hk
      simp [Memory.read, ih, Ne.symm h]
    · simp [Memory.read, ih, hk]

theorem Memory.read_filter_same (c : Config) (m : Memory) (a : Nat) :
    Memory.read c (m.filter fun cell => cell.1 != a) a = Memory.unlisted c a := by
  induction m with
  | nil => rfl
  | cons cell rest ih =>
    obtain ⟨k, v⟩ := cell
    by_cases hk : k = a
    · subst hk
      simpa using ih
    · simp [Memory.read, ih, hk]

theorem Memory.read_insertCell_same (c : Config) (m : Memory) (a : Nat) (v : Byte) (h : ∀ cell ∈ m, cell.1 ≠ a) :
    Memory.read c (Memory.insertCell a v m) a = v := by
  induction m with
  | nil => simp [Memory.insertCell, Memory.read]
  | cons cell rest ih =>
    obtain ⟨k, b⟩ := cell
    have hk : k ≠ a := h (k, b) (by simp)
    have hrest : ∀ q ∈ rest, q.1 ≠ a := fun q hq => h q (by simp [hq])
    unfold Memory.insertCell
    split
    · simp [Memory.read]
    · simp [Memory.read, hk, ih hrest]

theorem Memory.read_insertCell_other (c : Config) (m : Memory) {a b : Nat} (v : Byte) (h : b ≠ a) :
    Memory.read c (Memory.insertCell a v m) b = Memory.read c m b := by
  induction m with
  | nil => simp [Memory.insertCell, Memory.read, Ne.symm h]
  | cons cell rest ih =>
    obtain ⟨k, w⟩ := cell
    unfold Memory.insertCell
    split
    · simp [Memory.read, Ne.symm h]
    · simp [Memory.read, ih]

theorem Memory.filter_ne (m : Memory) (a : Nat) : ∀ cell ∈ m.filter (fun cell => cell.1 != a), cell.1 ≠ a := by
  intro cell hc
  simpa using (List.mem_filter.mp hc).2

@[simp] theorem Memory.read_write_same (c : Config) (m : Memory) (a : Nat) (v : Byte) :
    Memory.read c (Memory.write c m a v) a = v := by
  unfold Memory.write
  split
  · rename_i hv
    rw [Memory.read_filter_same, hv]
  · exact Memory.read_insertCell_same c _ a v (Memory.filter_ne m a)

theorem Memory.read_write_other (c : Config) (m : Memory) {a b : Nat} (v : Byte) (h : b ≠ a) :
    Memory.read c (Memory.write c m a v) b = Memory.read c m b := by
  unfold Memory.write
  split
  · exact Memory.read_filter_other c m h
  · rw [Memory.read_insertCell_other c _ v h, Memory.read_filter_other c m h]

theorem Memory.read_writeBytes_before (c : Config) (bs : List Byte) :
    ∀ (m : Memory) (a b : Nat), b < a → Memory.read c (Memory.writeBytes c m a bs) b = Memory.read c m b := by
  induction bs with
  | nil => intros; rfl
  | cons v vs ih =>
    intro m a b hb
    rw [Memory.writeBytes, ih _ _ _ (by omega), Memory.read_write_other c m v (by omega)]

/-- What a byte reads as after consecutive stores: the stored byte inside the range, the old one outside (R55, R59). -/
theorem Memory.read_writeBytes (c : Config) (bs : List Byte) :
    ∀ (m : Memory) (a b : Nat), Memory.read c (Memory.writeBytes c m a bs) b =
      if h : a ≤ b ∧ b < a + bs.length then bs[b - a]'(by omega) else Memory.read c m b := by
  induction bs with
  | nil =>
    intro m a b
    have : ¬(a ≤ b ∧ b < a + 0) := by omega
    simp [Memory.writeBytes]
  | cons v vs ih =>
    intro m a b
    rw [Memory.writeBytes]
    rcases Nat.lt_trichotomy b a with hlt | heq | hgt
    · rw [Memory.read_writeBytes_before c vs _ _ _ (by omega), Memory.read_write_other c m v (by omega),
        dif_neg (by omega)]
    · subst heq
      rw [Memory.read_writeBytes_before c vs _ _ _ (by omega), Memory.read_write_same,
        dif_pos ⟨Nat.le_refl _, by simp⟩]
      simp
    · rw [ih]
      by_cases hin : b < a + (vs.length + 1)
      · rw [dif_pos ⟨by omega, by omega⟩, dif_pos ⟨by omega, by simpa using hin⟩]
        have hsub : b - a = (b - (a + 1)) + 1 := by omega
        simp [hsub]
      · rw [dif_neg (by omega), dif_neg (by simp; omega), Memory.read_write_other c m v (by omega)]

theorem Memory.read_writeBytes_outside (c : Config) (m : Memory) (a b : Nat) (bs : List Byte)
    (h : b < a ∨ a + bs.length ≤ b) : Memory.read c (Memory.writeBytes c m a bs) b = Memory.read c m b := by
  rw [Memory.read_writeBytes, dif_neg (by omega)]

/-! ### The canonical form -/

/-- The canonical form as a proposition. -/
theorem Memory.wf_iff (c : Config) (m : Memory) : m.wf c = true ↔
    m.Pairwise (fun p q => p.1 < q.1) ∧ ∀ cell ∈ m, cell.1 ≤ 0xFFF ∧ cell.2 ≠ Memory.unlisted c cell.1 := by
  simp [Memory.wf]

@[simp] theorem Memory.wf_nil (c : Config) : Memory.wf c [] = true := by
  simp [Memory.wf]

theorem Memory.mem_insertCell (m : Memory) (a : Nat) (v : Byte) (cell : Host.Cell) :
    cell ∈ Memory.insertCell a v m ↔ cell = (a, v) ∨ cell ∈ m := by
  induction m with
  | nil => simp [Memory.insertCell]
  | cons q rest ih =>
    obtain ⟨k, b⟩ := q
    unfold Memory.insertCell
    split
    · simp
    · simp only [List.mem_cons, ih]
      tauto

theorem Memory.insertCell_rising (m : Memory) (a : Nat) (v : Byte) (hne : ∀ cell ∈ m, cell.1 ≠ a)
    (h : m.Pairwise (fun p q => p.1 < q.1)) : (Memory.insertCell a v m).Pairwise (fun p q => p.1 < q.1) := by
  induction m with
  | nil => simp [Memory.insertCell]
  | cons q rest ih =>
    obtain ⟨k, b⟩ := q
    obtain ⟨hhead, htail⟩ := List.pairwise_cons.mp h
    have hk : k ≠ a := hne (k, b) (by simp)
    unfold Memory.insertCell
    split
    · rename_i hak
      refine List.pairwise_cons.mpr ⟨?_, h⟩
      intro cell hc
      rcases List.mem_cons.mp hc with rfl | hin
      · exact hak
      · exact Nat.lt_trans hak (hhead cell hin)
    · rename_i hak
      refine List.pairwise_cons.mpr ⟨?_, ih (fun c hc => hne c (by simp [hc])) htail⟩
      intro cell hc
      rcases (Memory.mem_insertCell rest a v cell).mp hc with rfl | hin
      · show k < a
        omega
      · exact hhead cell hin

/-- A store to an address of memory keeps the canonical form. -/
theorem Memory.write_wf (c : Config) (m : Memory) (a : Nat) (v : Byte) (h : m.wf c = true) (ha : a ≤ 0xFFF) :
    (Memory.write c m a v).wf c = true := by
  obtain ⟨hrise, hcells⟩ := (Memory.wf_iff c m).mp h
  have hrise' := hrise.sublist (List.filter_sublist (p := fun cell => cell.1 != a) (l := m))
  refine (Memory.wf_iff c _).mpr ?_
  unfold Memory.write
  split
  · exact ⟨hrise', fun cell hc => hcells cell (List.mem_filter.mp hc).1⟩
  · rename_i hv
    refine ⟨Memory.insertCell_rising _ a v (Memory.filter_ne m a) hrise', ?_⟩
    intro cell hc
    rcases (Memory.mem_insertCell _ a v cell).mp hc with rfl | hin
    · exact ⟨ha, hv⟩
    · exact hcells cell (List.mem_filter.mp hin).1

/-- Stores to consecutive addresses of memory keep the canonical form. -/
theorem Memory.writeBytes_wf (c : Config) (bs : List Byte) : ∀ (m : Memory) (a : Nat), m.wf c = true →
    a + bs.length ≤ 0x1000 → (Memory.writeBytes c m a bs).wf c = true := by
  induction bs with
  | nil => intro m a h _; exact h
  | cons v vs ih =>
    intro m a h hlen
    rw [List.length_cons] at hlen
    exact ih _ _ (Memory.write_wf c m a v h (by omega)) (by omega)

end Sys2Proof.Machine
end

