-- ==== Sys2Proof/Laws/State.lean ====
section
/-! SUPPORT. One lemma per field per update of the state, so that no later proof unfolds a record update. -/

namespace Sys2Proof.Machine

/-! ### `State.setReg` -/

@[simp] theorem State.setReg_mem (s : State) (x : Reg) (v : Byte) : (s.setReg x v).mem = s.mem := rfl
@[simp] theorem State.setReg_V (s : State) (x : Reg) (v : Byte) : (s.setReg x v).V = s.V.set x.val v := rfl
@[simp] theorem State.setReg_I (s : State) (x : Reg) (v : Byte) : (s.setReg x v).I = s.I := rfl
@[simp] theorem State.setReg_pc (s : State) (x : Reg) (v : Byte) : (s.setReg x v).pc = s.pc := rfl
@[simp] theorem State.setReg_stack (s : State) (x : Reg) (v : Byte) : (s.setReg x v).stack = s.stack := rfl
@[simp] theorem State.setReg_sp (s : State) (x : Reg) (v : Byte) : (s.setReg x v).sp = s.sp := rfl
@[simp] theorem State.setReg_DT (s : State) (x : Reg) (v : Byte) : (s.setReg x v).DT = s.DT := rfl
@[simp] theorem State.setReg_ST (s : State) (x : Reg) (v : Byte) : (s.setReg x v).ST = s.ST := rfl
@[simp] theorem State.setReg_fb (s : State) (x : Reg) (v : Byte) : (s.setReg x v).fb = s.fb := rfl
@[simp] theorem State.setReg_redraw (s : State) (x : Reg) (v : Byte) : (s.setReg x v).redraw = s.redraw := rfl
@[simp] theorem State.setReg_keys (s : State) (x : Reg) (v : Byte) : (s.setReg x v).keys = s.keys := rfl
@[simp] theorem State.setReg_fault (s : State) (x : Reg) (v : Byte) : (s.setReg x v).fault = s.fault := rfl
@[simp] theorem State.setReg_status (s : State) (x : Reg) (v : Byte) : (s.setReg x v).status = s.status := rfl
@[simp] theorem State.setReg_tone (s : State) (x : Reg) (v : Byte) : (s.setReg x v).tone = s.tone := rfl
@[simp] theorem State.setReg_draws (s : State) (x : Reg) (v : Byte) : (s.setReg x v).draws = s.draws := rfl
@[simp] theorem State.setReg_cfg (s : State) (x : Reg) (v : Byte) : (s.setReg x v).cfg = s.cfg := rfl

/-! ### `State.setFlagThenReg` -/

@[simp] theorem State.setFlagThenReg_mem (s : State) (f : Byte) (x : Reg) (v : Byte) : (s.setFlagThenReg f x v).mem = s.mem := rfl
@[simp] theorem State.setFlagThenReg_V (s : State) (f : Byte) (x : Reg) (v : Byte) : (s.setFlagThenReg f x v).V = (s.V.set 15 f).set x.val v := rfl
@[simp] theorem State.setFlagThenReg_I (s : State) (f : Byte) (x : Reg) (v : Byte) : (s.setFlagThenReg f x v).I = s.I := rfl
@[simp] theorem State.setFlagThenReg_pc (s : State) (f : Byte) (x : Reg) (v : Byte) : (s.setFlagThenReg f x v).pc = s.pc := rfl
@[simp] theorem State.setFlagThenReg_stack (s : State) (f : Byte) (x : Reg) (v : Byte) : (s.setFlagThenReg f x v).stack = s.stack := rfl
@[simp] theorem State.setFlagThenReg_sp (s : State) (f : Byte) (x : Reg) (v : Byte) : (s.setFlagThenReg f x v).sp = s.sp := rfl
@[simp] theorem State.setFlagThenReg_DT (s : State) (f : Byte) (x : Reg) (v : Byte) : (s.setFlagThenReg f x v).DT = s.DT := rfl
@[simp] theorem State.setFlagThenReg_ST (s : State) (f : Byte) (x : Reg) (v : Byte) : (s.setFlagThenReg f x v).ST = s.ST := rfl
@[simp] theorem State.setFlagThenReg_fb (s : State) (f : Byte) (x : Reg) (v : Byte) : (s.setFlagThenReg f x v).fb = s.fb := rfl
@[simp] theorem State.setFlagThenReg_redraw (s : State) (f : Byte) (x : Reg) (v : Byte) : (s.setFlagThenReg f x v).redraw = s.redraw := rfl
@[simp] theorem State.setFlagThenReg_keys (s : State) (f : Byte) (x : Reg) (v : Byte) : (s.setFlagThenReg f x v).keys = s.keys := rfl
@[simp] theorem State.setFlagThenReg_fault (s : State) (f : Byte) (x : Reg) (v : Byte) : (s.setFlagThenReg f x v).fault = s.fault := rfl
@[simp] theorem State.setFlagThenReg_status (s : State) (f : Byte) (x : Reg) (v : Byte) : (s.setFlagThenReg f x v).status = s.status := rfl
@[simp] theorem State.setFlagThenReg_tone (s : State) (f : Byte) (x : Reg) (v : Byte) : (s.setFlagThenReg f x v).tone = s.tone := rfl
@[simp] theorem State.setFlagThenReg_draws (s : State) (f : Byte) (x : Reg) (v : Byte) : (s.setFlagThenReg f x v).draws = s.draws := rfl
@[simp] theorem State.setFlagThenReg_cfg (s : State) (f : Byte) (x : Reg) (v : Byte) : (s.setFlagThenReg f x v).cfg = s.cfg := rfl

/-! ### `State.setI` -/

@[simp] theorem State.setI_mem (s : State) (a : Nat) : (s.setI a).mem = s.mem := rfl
@[simp] theorem State.setI_V (s : State) (a : Nat) : (s.setI a).V = s.V := rfl
@[simp] theorem State.setI_I (s : State) (a : Nat) : (s.setI a).I = BitVec.ofNat 16 a := rfl
@[simp] theorem State.setI_pc (s : State) (a : Nat) : (s.setI a).pc = s.pc := rfl
@[simp] theorem State.setI_stack (s : State) (a : Nat) : (s.setI a).stack = s.stack := rfl
@[simp] theorem State.setI_sp (s : State) (a : Nat) : (s.setI a).sp = s.sp := rfl
@[simp] theorem State.setI_DT (s : State) (a : Nat) : (s.setI a).DT = s.DT := rfl
@[simp] theorem State.setI_ST (s : State) (a : Nat) : (s.setI a).ST = s.ST := rfl
@[simp] theorem State.setI_fb (s : State) (a : Nat) : (s.setI a).fb = s.fb := rfl
@[simp] theorem State.setI_redraw (s : State) (a : Nat) : (s.setI a).redraw = s.redraw := rfl
@[simp] theorem State.setI_keys (s : State) (a : Nat) : (s.setI a).keys = s.keys := rfl
@[simp] theorem State.setI_fault (s : State) (a : Nat) : (s.setI a).fault = s.fault := rfl
@[simp] theorem State.setI_status (s : State) (a : Nat) : (s.setI a).status = s.status := rfl
@[simp] theorem State.setI_tone (s : State) (a : Nat) : (s.setI a).tone = s.tone := rfl
@[simp] theorem State.setI_draws (s : State) (a : Nat) : (s.setI a).draws = s.draws := rfl
@[simp] theorem State.setI_cfg (s : State) (a : Nat) : (s.setI a).cfg = s.cfg := rfl

/-! ### `State.setDT` -/

@[simp] theorem State.setDT_mem (s : State) (v : Byte) : (s.setDT v).mem = s.mem := rfl
@[simp] theorem State.setDT_V (s : State) (v : Byte) : (s.setDT v).V = s.V := rfl
@[simp] theorem State.setDT_I (s : State) (v : Byte) : (s.setDT v).I = s.I := rfl
@[simp] theorem State.setDT_pc (s : State) (v : Byte) : (s.setDT v).pc = s.pc := rfl
@[simp] theorem State.setDT_stack (s : State) (v : Byte) : (s.setDT v).stack = s.stack := rfl
@[simp] theorem State.setDT_sp (s : State) (v : Byte) : (s.setDT v).sp = s.sp := rfl
@[simp] theorem State.setDT_DT (s : State) (v : Byte) : (s.setDT v).DT = v := rfl
@[simp] theorem State.setDT_ST (s : State) (v : Byte) : (s.setDT v).ST = s.ST := rfl
@[simp] theorem State.setDT_fb (s : State) (v : Byte) : (s.setDT v).fb = s.fb := rfl
@[simp] theorem State.setDT_redraw (s : State) (v : Byte) : (s.setDT v).redraw = s.redraw := rfl
@[simp] theorem State.setDT_keys (s : State) (v : Byte) : (s.setDT v).keys = s.keys := rfl
@[simp] theorem State.setDT_fault (s : State) (v : Byte) : (s.setDT v).fault = s.fault := rfl
@[simp] theorem State.setDT_status (s : State) (v : Byte) : (s.setDT v).status = s.status := rfl
@[simp] theorem State.setDT_tone (s : State) (v : Byte) : (s.setDT v).tone = s.tone := rfl
@[simp] theorem State.setDT_draws (s : State) (v : Byte) : (s.setDT v).draws = s.draws := rfl
@[simp] theorem State.setDT_cfg (s : State) (v : Byte) : (s.setDT v).cfg = s.cfg := rfl

/-! ### `State.setST` -/

@[simp] theorem State.setST_mem (s : State) (v : Byte) : (s.setST v).mem = s.mem := rfl
@[simp] theorem State.setST_V (s : State) (v : Byte) : (s.setST v).V = s.V := rfl
@[simp] theorem State.setST_I (s : State) (v : Byte) : (s.setST v).I = s.I := rfl
@[simp] theorem State.setST_pc (s : State) (v : Byte) : (s.setST v).pc = s.pc := rfl
@[simp] theorem State.setST_stack (s : State) (v : Byte) : (s.setST v).stack = s.stack := rfl
@[simp] theorem State.setST_sp (s : State) (v : Byte) : (s.setST v).sp = s.sp := rfl
@[simp] theorem State.setST_DT (s : State) (v : Byte) : (s.setST v).DT = s.DT := rfl
@[simp] theorem State.setST_ST (s : State) (v : Byte) : (s.setST v).ST = v := rfl
@[simp] theorem State.setST_fb (s : State) (v : Byte) : (s.setST v).fb = s.fb := rfl
@[simp] theorem State.setST_redraw (s : State) (v : Byte) : (s.setST v).redraw = s.redraw := rfl
@[simp] theorem State.setST_keys (s : State) (v : Byte) : (s.setST v).keys = s.keys := rfl
@[simp] theorem State.setST_fault (s : State) (v : Byte) : (s.setST v).fault = s.fault := rfl
@[simp] theorem State.setST_status (s : State) (v : Byte) : (s.setST v).status = s.status := rfl
@[simp] theorem State.setST_tone (s : State) (v : Byte) : (s.setST v).tone = s.tone := rfl
@[simp] theorem State.setST_draws (s : State) (v : Byte) : (s.setST v).draws = s.draws := rfl
@[simp] theorem State.setST_cfg (s : State) (v : Byte) : (s.setST v).cfg = s.cfg := rfl

/-! ### `State.writeBytes` -/

@[simp] theorem State.writeBytes_mem (s : State) (a : Nat) (bs : List Byte) : (s.writeBytes a bs).mem = s.mem.writeBytes s.cfg a bs := rfl
@[simp] theorem State.writeBytes_V (s : State) (a : Nat) (bs : List Byte) : (s.writeBytes a bs).V = s.V := rfl
@[simp] theorem State.writeBytes_I (s : State) (a : Nat) (bs : List Byte) : (s.writeBytes a bs).I = s.I := rfl
@[simp] theorem State.writeBytes_pc (s : State) (a : Nat) (bs : List Byte) : (s.writeBytes a bs).pc = s.pc := rfl
@[simp] theorem State.writeBytes_stack (s : State) (a : Nat) (bs : List Byte) : (s.writeBytes a bs).stack = s.stack := rfl
@[simp] theorem State.writeBytes_sp (s : State) (a : Nat) (bs : List Byte) : (s.writeBytes a bs).sp = s.sp := rfl
@[simp] theorem State.writeBytes_DT (s : State) (a : Nat) (bs : List Byte) : (s.writeBytes a bs).DT = s.DT := rfl
@[simp] theorem State.writeBytes_ST (s : State) (a : Nat) (bs : List Byte) : (s.writeBytes a bs).ST = s.ST := rfl
@[simp] theorem State.writeBytes_fb (s : State) (a : Nat) (bs : List Byte) : (s.writeBytes a bs).fb = s.fb := rfl
@[simp] theorem State.writeBytes_redraw (s : State) (a : Nat) (bs : List Byte) : (s.writeBytes a bs).redraw = s.redraw := rfl
@[simp] theorem State.writeBytes_keys (s : State) (a : Nat) (bs : List Byte) : (s.writeBytes a bs).keys = s.keys := rfl
@[simp] theorem State.writeBytes_fault (s : State) (a : Nat) (bs : List Byte) : (s.writeBytes a bs).fault = s.fault := rfl
@[simp] theorem State.writeBytes_status (s : State) (a : Nat) (bs : List Byte) : (s.writeBytes a bs).status = s.status := rfl
@[simp] theorem State.writeBytes_tone (s : State) (a : Nat) (bs : List Byte) : (s.writeBytes a bs).tone = s.tone := rfl
@[simp] theorem State.writeBytes_draws (s : State) (a : Nat) (bs : List Byte) : (s.writeBytes a bs).draws = s.draws := rfl
@[simp] theorem State.writeBytes_cfg (s : State) (a : Nat) (bs : List Byte) : (s.writeBytes a bs).cfg = s.cfg := rfl

/-! ### `State.loadRegBlock` -/

@[simp] theorem State.loadRegBlock_mem (s : State) (x : Reg) : (s.loadRegBlock x).mem = s.mem := rfl
@[simp] theorem State.loadRegBlock_V (s : State) (x : Reg) : (s.loadRegBlock x).V = Vector.ofFn fun i : Fin 16 => if i ≤ x then s.readByte (s.I.toNat + i.val) else s.reg i := rfl
@[simp] theorem State.loadRegBlock_I (s : State) (x : Reg) : (s.loadRegBlock x).I = s.I := rfl
@[simp] theorem State.loadRegBlock_pc (s : State) (x : Reg) : (s.loadRegBlock x).pc = s.pc := rfl
@[simp] theorem State.loadRegBlock_stack (s : State) (x : Reg) : (s.loadRegBlock x).stack = s.stack := rfl
@[simp] theorem State.loadRegBlock_sp (s : State) (x : Reg) : (s.loadRegBlock x).sp = s.sp := rfl
@[simp] theorem State.loadRegBlock_DT (s : State) (x : Reg) : (s.loadRegBlock x).DT = s.DT := rfl
@[simp] theorem State.loadRegBlock_ST (s : State) (x : Reg) : (s.loadRegBlock x).ST = s.ST := rfl
@[simp] theorem State.loadRegBlock_fb (s : State) (x : Reg) : (s.loadRegBlock x).fb = s.fb := rfl
@[simp] theorem State.loadRegBlock_redraw (s : State) (x : Reg) : (s.loadRegBlock x).redraw = s.redraw := rfl
@[simp] theorem State.loadRegBlock_keys (s : State) (x : Reg) : (s.loadRegBlock x).keys = s.keys := rfl
@[simp] theorem State.loadRegBlock_fault (s : State) (x : Reg) : (s.loadRegBlock x).fault = s.fault := rfl
@[simp] theorem State.loadRegBlock_status (s : State) (x : Reg) : (s.loadRegBlock x).status = s.status := rfl
@[simp] theorem State.loadRegBlock_tone (s : State) (x : Reg) : (s.loadRegBlock x).tone = s.tone := rfl
@[simp] theorem State.loadRegBlock_draws (s : State) (x : Reg) : (s.loadRegBlock x).draws = s.draws := rfl
@[simp] theorem State.loadRegBlock_cfg (s : State) (x : Reg) : (s.loadRegBlock x).cfg = s.cfg := rfl

/-! ### `State.drawInto` -/

@[simp] theorem State.drawInto_mem (s : State) (x : Reg) (nn r : Byte) : (s.drawInto x nn r).mem = s.mem := rfl
@[simp] theorem State.drawInto_V (s : State) (x : Reg) (nn r : Byte) : (s.drawInto x nn r).V = s.V.set x.val (r &&& nn) := rfl
@[simp] theorem State.drawInto_I (s : State) (x : Reg) (nn r : Byte) : (s.drawInto x nn r).I = s.I := rfl
@[simp] theorem State.drawInto_pc (s : State) (x : Reg) (nn r : Byte) : (s.drawInto x nn r).pc = s.pc := rfl
@[simp] theorem State.drawInto_stack (s : State) (x : Reg) (nn r : Byte) : (s.drawInto x nn r).stack = s.stack := rfl
@[simp] theorem State.drawInto_sp (s : State) (x : Reg) (nn r : Byte) : (s.drawInto x nn r).sp = s.sp := rfl
@[simp] theorem State.drawInto_DT (s : State) (x : Reg) (nn r : Byte) : (s.drawInto x nn r).DT = s.DT := rfl
@[simp] theorem State.drawInto_ST (s : State) (x : Reg) (nn r : Byte) : (s.drawInto x nn r).ST = s.ST := rfl
@[simp] theorem State.drawInto_fb (s : State) (x : Reg) (nn r : Byte) : (s.drawInto x nn r).fb = s.fb := rfl
@[simp] theorem State.drawInto_redraw (s : State) (x : Reg) (nn r : Byte) : (s.drawInto x nn r).redraw = s.redraw := rfl
@[simp] theorem State.drawInto_keys (s : State) (x : Reg) (nn r : Byte) : (s.drawInto x nn r).keys = s.keys := rfl
@[simp] theorem State.drawInto_fault (s : State) (x : Reg) (nn r : Byte) : (s.drawInto x nn r).fault = s.fault := rfl
@[simp] theorem State.drawInto_status (s : State) (x : Reg) (nn r : Byte) : (s.drawInto x nn r).status = s.status := rfl
@[simp] theorem State.drawInto_tone (s : State) (x : Reg) (nn r : Byte) : (s.drawInto x nn r).tone = s.tone := rfl
@[simp] theorem State.drawInto_draws (s : State) (x : Reg) (nn r : Byte) : (s.drawInto x nn r).draws = s.draws + 1 := rfl
@[simp] theorem State.drawInto_cfg (s : State) (x : Reg) (nn r : Byte) : (s.drawInto x nn r).cfg = s.cfg := rfl

/-! ### `State.draw` -/

@[simp] theorem State.draw_mem (s : State) (d : Drawing) : (s.draw d).mem = s.mem := rfl
@[simp] theorem State.draw_V (s : State) (d : Drawing) : (s.draw d).V = s.V.set 15 (collisionFlag d.2) := rfl
@[simp] theorem State.draw_I (s : State) (d : Drawing) : (s.draw d).I = s.I := rfl
@[simp] theorem State.draw_pc (s : State) (d : Drawing) : (s.draw d).pc = s.pc := rfl
@[simp] theorem State.draw_stack (s : State) (d : Drawing) : (s.draw d).stack = s.stack := rfl
@[simp] theorem State.draw_sp (s : State) (d : Drawing) : (s.draw d).sp = s.sp := rfl
@[simp] theorem State.draw_DT (s : State) (d : Drawing) : (s.draw d).DT = s.DT := rfl
@[simp] theorem State.draw_ST (s : State) (d : Drawing) : (s.draw d).ST = s.ST := rfl
@[simp] theorem State.draw_fb (s : State) (d : Drawing) : (s.draw d).fb = d.1 := rfl
@[simp] theorem State.draw_redraw (s : State) (d : Drawing) : (s.draw d).redraw = true := rfl
@[simp] theorem State.draw_keys (s : State) (d : Drawing) : (s.draw d).keys = s.keys := rfl
@[simp] theorem State.draw_fault (s : State) (d : Drawing) : (s.draw d).fault = s.fault := rfl
@[simp] theorem State.draw_status (s : State) (d : Drawing) : (s.draw d).status = s.status := rfl
@[simp] theorem State.draw_tone (s : State) (d : Drawing) : (s.draw d).tone = s.tone := rfl
@[simp] theorem State.draw_draws (s : State) (d : Drawing) : (s.draw d).draws = s.draws := rfl
@[simp] theorem State.draw_cfg (s : State) (d : Drawing) : (s.draw d).cfg = s.cfg := rfl

/-! ### `State.advance` -/

@[simp] theorem State.advance_mem (s : State) (n : Nat) : (s.advance n).mem = s.mem := rfl
@[simp] theorem State.advance_V (s : State) (n : Nat) : (s.advance n).V = s.V := rfl
@[simp] theorem State.advance_I (s : State) (n : Nat) : (s.advance n).I = s.I := rfl
@[simp] theorem State.advance_pc (s : State) (n : Nat) : (s.advance n).pc = BitVec.ofNat 16 n := rfl
@[simp] theorem State.advance_stack (s : State) (n : Nat) : (s.advance n).stack = s.stack := rfl
@[simp] theorem State.advance_sp (s : State) (n : Nat) : (s.advance n).sp = s.sp := rfl
@[simp] theorem State.advance_DT (s : State) (n : Nat) : (s.advance n).DT = s.DT := rfl
@[simp] theorem State.advance_ST (s : State) (n : Nat) : (s.advance n).ST = s.ST := rfl
@[simp] theorem State.advance_fb (s : State) (n : Nat) : (s.advance n).fb = s.fb := rfl
@[simp] theorem State.advance_redraw (s : State) (n : Nat) : (s.advance n).redraw = s.redraw := rfl
@[simp] theorem State.advance_keys (s : State) (n : Nat) : (s.advance n).keys = s.keys := rfl
@[simp] theorem State.advance_fault (s : State) (n : Nat) : (s.advance n).fault = s.fault := rfl
@[simp] theorem State.advance_status (s : State) (n : Nat) : (s.advance n).status = .ok := rfl
@[simp] theorem State.advance_tone (s : State) (n : Nat) : (s.advance n).tone = s.tone := rfl
@[simp] theorem State.advance_draws (s : State) (n : Nat) : (s.advance n).draws = s.draws := rfl
@[simp] theorem State.advance_cfg (s : State) (n : Nat) : (s.advance n).cfg = s.cfg := rfl

/-! ### `State.raise` -/

@[simp] theorem State.raise_mem (s : State) (c : Fatal) (w : Word) : (s.raise c w).mem = s.mem := rfl
@[simp] theorem State.raise_V (s : State) (c : Fatal) (w : Word) : (s.raise c w).V = s.V := rfl
@[simp] theorem State.raise_I (s : State) (c : Fatal) (w : Word) : (s.raise c w).I = s.I := rfl
@[simp] theorem State.raise_pc (s : State) (c : Fatal) (w : Word) : (s.raise c w).pc = s.pc := rfl
@[simp] theorem State.raise_stack (s : State) (c : Fatal) (w : Word) : (s.raise c w).stack = s.stack := rfl
@[simp] theorem State.raise_sp (s : State) (c : Fatal) (w : Word) : (s.raise c w).sp = s.sp := rfl
@[simp] theorem State.raise_DT (s : State) (c : Fatal) (w : Word) : (s.raise c w).DT = s.DT := rfl
@[simp] theorem State.raise_ST (s : State) (c : Fatal) (w : Word) : (s.raise c w).ST = s.ST := rfl
@[simp] theorem State.raise_fb (s : State) (c : Fatal) (w : Word) : (s.raise c w).fb = s.fb := rfl
@[simp] theorem State.raise_redraw (s : State) (c : Fatal) (w : Word) : (s.raise c w).redraw = s.redraw := rfl
@[simp] theorem State.raise_keys (s : State) (c : Fatal) (w : Word) : (s.raise c w).keys = s.keys := rfl
@[simp] theorem State.raise_fault (s : State) (c : Fatal) (w : Word) : (s.raise c w).fault = some { code := c, atPc := s.pc, word := w } := rfl
@[simp] theorem State.raise_status (s : State) (c : Fatal) (w : Word) : (s.raise c w).status = .fatal := rfl
@[simp] theorem State.raise_tone (s : State) (c : Fatal) (w : Word) : (s.raise c w).tone = false := rfl
@[simp] theorem State.raise_draws (s : State) (c : Fatal) (w : Word) : (s.raise c w).draws = s.draws := rfl
@[simp] theorem State.raise_cfg (s : State) (c : Fatal) (w : Word) : (s.raise c w).cfg = s.cfg := rfl

/-! ### `State.stayHalted` -/

@[simp] theorem State.stayHalted_mem (s : State) : (s.stayHalted).mem = s.mem := rfl
@[simp] theorem State.stayHalted_V (s : State) : (s.stayHalted).V = s.V := rfl
@[simp] theorem State.stayHalted_I (s : State) : (s.stayHalted).I = s.I := rfl
@[simp] theorem State.stayHalted_pc (s : State) : (s.stayHalted).pc = s.pc := rfl
@[simp] theorem State.stayHalted_stack (s : State) : (s.stayHalted).stack = s.stack := rfl
@[simp] theorem State.stayHalted_sp (s : State) : (s.stayHalted).sp = s.sp := rfl
@[simp] theorem State.stayHalted_DT (s : State) : (s.stayHalted).DT = s.DT := rfl
@[simp] theorem State.stayHalted_ST (s : State) : (s.stayHalted).ST = s.ST := rfl
@[simp] theorem State.stayHalted_fb (s : State) : (s.stayHalted).fb = s.fb := rfl
@[simp] theorem State.stayHalted_redraw (s : State) : (s.stayHalted).redraw = s.redraw := rfl
@[simp] theorem State.stayHalted_keys (s : State) : (s.stayHalted).keys = s.keys := rfl
@[simp] theorem State.stayHalted_fault (s : State) : (s.stayHalted).fault = s.fault := rfl
@[simp] theorem State.stayHalted_status (s : State) : (s.stayHalted).status = .fatal := rfl
@[simp] theorem State.stayHalted_tone (s : State) : (s.stayHalted).tone = false := rfl
@[simp] theorem State.stayHalted_draws (s : State) : (s.stayHalted).draws = s.draws := rfl
@[simp] theorem State.stayHalted_cfg (s : State) : (s.stayHalted).cfg = s.cfg := rfl

/-! ### `State.openLatch` -/

@[simp] theorem State.openLatch_mem (s : State) : (s.openLatch).mem = s.mem := rfl
@[simp] theorem State.openLatch_V (s : State) : (s.openLatch).V = s.V := rfl
@[simp] theorem State.openLatch_I (s : State) : (s.openLatch).I = s.I := rfl
@[simp] theorem State.openLatch_pc (s : State) : (s.openLatch).pc = s.pc := rfl
@[simp] theorem State.openLatch_stack (s : State) : (s.openLatch).stack = s.stack := rfl
@[simp] theorem State.openLatch_sp (s : State) : (s.openLatch).sp = s.sp := rfl
@[simp] theorem State.openLatch_DT (s : State) : (s.openLatch).DT = s.DT := rfl
@[simp] theorem State.openLatch_ST (s : State) : (s.openLatch).ST = s.ST := rfl
@[simp] theorem State.openLatch_fb (s : State) : (s.openLatch).fb = s.fb := rfl
@[simp] theorem State.openLatch_redraw (s : State) : (s.openLatch).redraw = s.redraw := rfl
@[simp] theorem State.openLatch_keys (s : State) : (s.openLatch).keys = s.keys := rfl
@[simp] theorem State.openLatch_fault (s : State) : (s.openLatch).fault = none := rfl
@[simp] theorem State.openLatch_status (s : State) : (s.openLatch).status = s.status := rfl
@[simp] theorem State.openLatch_tone (s : State) : (s.openLatch).tone = s.tone := rfl
@[simp] theorem State.openLatch_draws (s : State) : (s.openLatch).draws = s.draws := rfl
@[simp] theorem State.openLatch_cfg (s : State) : (s.openLatch).cfg = s.cfg := rfl

/-! ### `State.hold` -/

@[simp] theorem State.hold_mem (s : State) : (s.hold).mem = s.mem := rfl
@[simp] theorem State.hold_V (s : State) : (s.hold).V = s.V := rfl
@[simp] theorem State.hold_I (s : State) : (s.hold).I = s.I := rfl
@[simp] theorem State.hold_pc (s : State) : (s.hold).pc = s.pc := rfl
@[simp] theorem State.hold_stack (s : State) : (s.hold).stack = s.stack := rfl
@[simp] theorem State.hold_sp (s : State) : (s.hold).sp = s.sp := rfl
@[simp] theorem State.hold_DT (s : State) : (s.hold).DT = s.DT := rfl
@[simp] theorem State.hold_ST (s : State) : (s.hold).ST = s.ST := rfl
@[simp] theorem State.hold_fb (s : State) : (s.hold).fb = s.fb := rfl
@[simp] theorem State.hold_redraw (s : State) : (s.hold).redraw = s.redraw := rfl
@[simp] theorem State.hold_keys (s : State) : (s.hold).keys = s.keys := rfl
@[simp] theorem State.hold_fault (s : State) : (s.hold).fault = s.fault := rfl
@[simp] theorem State.hold_status (s : State) : (s.hold).status = .waiting := rfl
@[simp] theorem State.hold_tone (s : State) : (s.hold).tone = s.tone := rfl
@[simp] theorem State.hold_draws (s : State) : (s.hold).draws = s.draws := rfl
@[simp] theorem State.hold_cfg (s : State) : (s.hold).cfg = s.cfg := rfl

/-! ### `State.tick` -/

@[simp] theorem State.tick_mem (s : State) : (s.tick).mem = s.mem := rfl
@[simp] theorem State.tick_V (s : State) : (s.tick).V = s.V := rfl
@[simp] theorem State.tick_I (s : State) : (s.tick).I = s.I := rfl
@[simp] theorem State.tick_pc (s : State) : (s.tick).pc = s.pc := rfl
@[simp] theorem State.tick_stack (s : State) : (s.tick).stack = s.stack := rfl
@[simp] theorem State.tick_sp (s : State) : (s.tick).sp = s.sp := rfl
@[simp] theorem State.tick_DT (s : State) : (s.tick).DT = tickTimer s.DT := rfl
@[simp] theorem State.tick_ST (s : State) : (s.tick).ST = tickTimer s.ST := rfl
@[simp] theorem State.tick_fb (s : State) : (s.tick).fb = s.fb := rfl
@[simp] theorem State.tick_redraw (s : State) : (s.tick).redraw = s.redraw := rfl
@[simp] theorem State.tick_keys (s : State) : (s.tick).keys = s.keys := rfl
@[simp] theorem State.tick_fault (s : State) : (s.tick).fault = s.fault := rfl
@[simp] theorem State.tick_status (s : State) : (s.tick).status = s.status := rfl
@[simp] theorem State.tick_tone (s : State) : (s.tick).tone = (s.ST == 1#8) := rfl
@[simp] theorem State.tick_draws (s : State) : (s.tick).draws = s.draws := rfl
@[simp] theorem State.tick_cfg (s : State) : (s.tick).cfg = s.cfg := rfl

/-! ### `State.setKey` -/

@[simp] theorem State.setKey_mem (s : State) (k : Fin 16) (b : Bool) : (s.setKey k b).mem = s.mem := rfl
@[simp] theorem State.setKey_V (s : State) (k : Fin 16) (b : Bool) : (s.setKey k b).V = s.V := rfl
@[simp] theorem State.setKey_I (s : State) (k : Fin 16) (b : Bool) : (s.setKey k b).I = s.I := rfl
@[simp] theorem State.setKey_pc (s : State) (k : Fin 16) (b : Bool) : (s.setKey k b).pc = s.pc := rfl
@[simp] theorem State.setKey_stack (s : State) (k : Fin 16) (b : Bool) : (s.setKey k b).stack = s.stack := rfl
@[simp] theorem State.setKey_sp (s : State) (k : Fin 16) (b : Bool) : (s.setKey k b).sp = s.sp := rfl
@[simp] theorem State.setKey_DT (s : State) (k : Fin 16) (b : Bool) : (s.setKey k b).DT = s.DT := rfl
@[simp] theorem State.setKey_ST (s : State) (k : Fin 16) (b : Bool) : (s.setKey k b).ST = s.ST := rfl
@[simp] theorem State.setKey_fb (s : State) (k : Fin 16) (b : Bool) : (s.setKey k b).fb = s.fb := rfl
@[simp] theorem State.setKey_redraw (s : State) (k : Fin 16) (b : Bool) : (s.setKey k b).redraw = s.redraw := rfl
@[simp] theorem State.setKey_keys (s : State) (k : Fin 16) (b : Bool) : (s.setKey k b).keys = s.keys.set k.val b := rfl
@[simp] theorem State.setKey_fault (s : State) (k : Fin 16) (b : Bool) : (s.setKey k b).fault = s.fault := rfl
@[simp] theorem State.setKey_status (s : State) (k : Fin 16) (b : Bool) : (s.setKey k b).status = s.status := rfl
@[simp] theorem State.setKey_tone (s : State) (k : Fin 16) (b : Bool) : (s.setKey k b).tone = s.tone := rfl
@[simp] theorem State.setKey_draws (s : State) (k : Fin 16) (b : Bool) : (s.setKey k b).draws = s.draws := rfl
@[simp] theorem State.setKey_cfg (s : State) (k : Fin 16) (b : Bool) : (s.setKey k b).cfg = s.cfg := rfl

end Sys2Proof.Machine
end

