-- ==== Sys2Proof/Laws/Ops.lean ====
section
/-! SUPPORT. What the shared operations do, one lemma each: the commit, the return stack, the register block, keys and
digits, the tick, fetch and placing a word. -/

namespace Sys2Proof.Machine

/-! ### The commit (R104) -/

theorem State.commit_of_le (s t : State) (w : Word) {n : Nat} (h : n ≤ 0xFFF) : s.commit w n t = t.advance n :=
  if_neg (by omega)

theorem State.commit_of_gt (s t : State) (w : Word) {n : Nat} (h : 0xFFF < n) :
    s.commit w n t = s.raise .addressRange w := if_pos h

/-- A commit raises and writes nothing, or performs the writes and sets `pc`. -/
theorem State.commit_cases (s t : State) (w : Word) (n : Nat) :
    (0xFFF < n ∧ s.commit w n t = s.raise .addressRange w) ∨ (n ≤ 0xFFF ∧ s.commit w n t = t.advance n) := by
  by_cases h : 0xFFF < n
  · exact .inl ⟨h, s.commit_of_gt t w h⟩
  · exact .inr ⟨by omega, s.commit_of_le t w (by omega)⟩

theorem State.sequential_of_le (s t : State) (w : Word) (h : s.pc.toNat ≤ 0xFFD) :
    s.sequential w t = t.advance (s.pc.toNat + 2) := s.commit_of_le t w (by omega)

theorem State.sequential_of_gt (s t : State) (w : Word) (h : 0xFFE ≤ s.pc.toNat) :
    s.sequential w t = s.raise .addressRange w := s.commit_of_gt t w (by omega)

/-- The address `n` above `pc`, as a number committed and as a word. -/
theorem pc_add_ofNat (p : Word) (n : Nat) : BitVec.ofNat 16 (p.toNat + n) = p + BitVec.ofNat 16 n := by
  apply BitVec.eq_of_toNat_eq
  simp

/-! ### The range check (R57) -/

theorem spanInMemory_iff (first count : Nat) : spanInMemory first count = true ↔ count = 0 ∨ first + count ≤ 0x1000 := by
  simp [spanInMemory]

/-! ### The machine's memory -/

/-- What a byte reads as after an instruction's stores (R55, R59). -/
theorem State.readByte_writeBytes (s : State) (a b : Nat) (bs : List Byte) :
    (s.writeBytes a bs).readByte b =
      if h : a ≤ b ∧ b < a + bs.length then bs[b - a]'(by omega) else s.readByte b :=
  Memory.read_writeBytes s.cfg bs s.mem a b

/-- `readByte` looks at memory and the parameters only. -/
theorem State.readByte_congr {s t : State} (hm : t.mem = s.mem) (hc : t.cfg = s.cfg) (a : Nat) :
    t.readByte a = s.readByte a := by
  simp [State.readByte, hm, hc]

/-! ### Registers (R21) -/

theorem State.reg_setReg (s : State) (x y : Reg) (v : Byte) :
    (s.setReg x v).reg y = if y = x then v else s.reg y := by
  simp only [State.reg, State.setReg_V, Vector.getElem_set, Fin.ext_iff, eq_comm]

@[simp] theorem State.regBlock_length (s : State) (x : Reg) : (s.regBlock x).length = x.val + 1 := by
  have := x.isLt
  simp [State.regBlock]

theorem State.regBlock_get (s : State) (x : Reg) (k : Nat) (h : k < (s.regBlock x).length) (hk : k < 16) :
    (s.regBlock x)[k] = s.V[k] := by
  simp [State.regBlock]

/-- The registers after a block load: `V[0]` to `V[x]` from memory, the others as they were (R165). -/
theorem State.loadRegBlock_reg (s : State) (x i : Reg) :
    (s.loadRegBlock x).reg i = if i ≤ x then s.readByte (s.I.toNat + i.val) else s.reg i := by
  simp [State.reg, State.loadRegBlock_V]

/-! ### The index register (R161) -/

/-- What `ADD_I` writes: `I` always, `V[0xF]` with the quirk on overflow only. -/
theorem State.addIndex_eq (s : State) (v : Byte) :
    s.addIndex v = { s with
      I := BitVec.ofNat 16 ((s.I.toNat + v.toNat) % 0x1000),
      V := if s.cfg.quirkFx1eFlag = true ∧ s.I.toNat + v.toNat > 0xFFF then s.V.set 15 1#8 else s.V } := by
  by_cases hq : s.cfg.quirkFx1eFlag = true ∧ s.I.toNat + v.toNat > 0xFFF
  · have hb : (s.cfg.quirkFx1eFlag && indexOverflow (s.I.toNat + v.toNat)) = true := by
      simp [indexOverflow, hq.1, hq.2]
    simp only [State.addIndex, hb, if_true, if_pos hq, State.setReg, State.setI]
    rfl
  · have hb : (s.cfg.quirkFx1eFlag && indexOverflow (s.I.toNat + v.toNat)) = false := by
      rw [← Bool.not_eq_true]
      simpa [indexOverflow] using hq
    simp only [State.addIndex, hb, if_neg hq, State.setI]
    rfl

/-! ### Keys and digits (R180 to R182, R205) -/

theorem State.digit_none_iff (s : State) (x : Reg) : s.digit x = none ↔ 0xF < (s.reg x).toNat := by
  unfold State.digit
  split <;> simp <;> omega

theorem State.digit_some_iff (s : State) (x : Reg) (d : Fin 16) : s.digit x = some d ↔ (s.reg x).toNat = d.val := by
  have := d.isLt
  unfold State.digit
  split <;> simp [Fin.ext_iff]
  omega

theorem State.lowestKey_none_iff (s : State) : s.lowestKey = none ↔ ∀ k, s.key k = false := by
  simp [State.lowestKey]

/-- The lowest pressed key is pressed, and every key below it is not (R182). -/
theorem State.lowestKey_some_iff (s : State) (k : Fin 16) :
    s.lowestKey = some k ↔ s.key k = true ∧ ∀ j, j < k → s.key j = false := by
  unfold State.lowestKey
  generalize hkey : s.key = p
  clear hkey
  constructor
  · intro h
    refine ⟨List.find?_some h, fun j hj => ?_⟩
    obtain ⟨_, before, after, hsplit, hbefore⟩ := List.find?_eq_some_iff_append.mp h
    have hsorted : (List.finRange 16).Pairwise (· < ·) := by decide
    have hmem : j ∈ before ++ k :: after := hsplit ▸ List.mem_finRange j
    rw [hsplit, List.pairwise_append] at hsorted
    rcases List.mem_append.mp hmem with hin | hin
    · simpa using hbefore j hin
    · rcases List.mem_cons.mp hin with rfl | hin
      · exact absurd hj (lt_irrefl _)
      · exact absurd (lt_trans hj ((List.pairwise_cons.mp hsorted.2.1).1 j hin)) (lt_irrefl _)
  · rintro ⟨hk, hlow⟩
    cases hfind : (List.finRange 16).find? p with
    | none => exact absurd hk (by simpa using List.find?_eq_none.mp hfind k (List.mem_finRange k))
    | some j =>
      have hj : p j = true := List.find?_some hfind
      obtain ⟨_, before, after, hsplit, hbefore⟩ := List.find?_eq_some_iff_append.mp hfind
      have hsorted : (List.finRange 16).Pairwise (· < ·) := by decide
      have hmem : k ∈ before ++ j :: after := hsplit ▸ List.mem_finRange k
      rw [hsplit, List.pairwise_append] at hsorted
      rcases List.mem_append.mp hmem with hin | hin
      · exact absurd hk (by simpa using hbefore k hin)
      · rcases List.mem_cons.mp hin with rfl | hin
        · rfl
        · have hjk := (List.pairwise_cons.mp hsorted.2.1).1 k hin
          exact absurd hj (by simpa using hlow j hjk)

/-! ### The return stack (R25, R26) -/

theorem State.push_full (s : State) (ret : Word) (h : s.sp = 16) : s.push ret = none := by
  simp [State.push, h]

theorem State.push_room (s : State) (ret : Word) (h : s.sp.val < 16) :
    s.push ret = some { s with stack := s.stack.set s.sp.val ret h, sp := ⟨s.sp.val + 1, by omega⟩ } := dif_pos h

theorem State.pop_empty (s : State) (h : s.sp = 0) : s.pop = none := by
  simp [State.pop, h]

theorem State.pop_held (s : State) (h : 0 < s.sp.val) :
    s.pop = some (s.stack[s.sp.val - 1]'(by omega), { s with sp := ⟨s.sp.val - 1, by omega⟩ }) := if_pos h

/-! ### The tick (R105) -/

theorem tickTimer_toNat (t : Byte) : (tickTimer t).toNat = t.toNat - 1 := by
  unfold tickTimer
  split
  · rw [BitVec.toNat_sub_of_le (by simp [BitVec.le_def]; omega)]
    rfl
  · omega

/-! ### Fetch (R54) -/

theorem State.fetchInMemory_iff (s : State) : s.fetchInMemory = true ↔ s.pc.toNat ≤ 0xFFE := by
  simp [State.fetchInMemory, spanInMemory]

/-- A placed word is the word that is fetched. -/
theorem State.fetchWord_placeWord (s : State) (w : Word) (h : s.pc.toNat ≤ 0xFFE) : (s.placeWord w).fetchWord = w := by
  have hin := s.fetchInMemory_iff.mpr h
  have hfirst := s.readByte_writeBytes s.pc.toNat s.pc.toNat [firstByte w, secondByte w]
  have hsecond := s.readByte_writeBytes s.pc.toNat (s.pc.toNat + 1) [firstByte w, secondByte w]
  simp at hfirst hsecond
  simp only [State.placeWord, hin, if_true, State.fetchWord, State.openLatch_pc, State.writeBytes_pc,
    State.readByte_congr (State.openLatch_mem _) (State.openLatch_cfg _), hfirst, hsecond, wordOfBytes_bytes]

end Sys2Proof.Machine
end

