-- ==== Sys2Proof/Laws/Exec.lean ====
section
/-! SUPPORT. What an instruction and a cycle can do, said once: raise, wait, or commit; an inversion lemma for each. -/

namespace Sys2Proof.Machine

/-- What no instruction writes (R36, R107): the latch, the keypad, the parameters and the tone are as in `s`. -/
structure State.Keeps (s u : State) : Prop where
  fault : u.fault = s.fault
  keys : u.keys = s.keys
  cfg : u.cfg = s.cfg
  tone : u.tone = s.tone

/-- What an instruction can do to `s`: raise a fatal condition, wait for a key, or perform its own writes (none of them to
what `Keeps` lists) and set the next `pc` (R103, R104). -/
def State.ExecOutcome (s : State) (w : Word) (t : State) : Prop :=
  (∃ code : Fatal, t = s.raise code w) ∨ t = s.hold ∨
    ∃ (u : State) (next : Nat), s.Keeps u ∧ next ≤ 0xFFF ∧ t = u.advance next

theorem State.ExecOutcome.raise (s : State) (w : Word) (code : Fatal) : s.ExecOutcome w (s.raise code w) := .inl ⟨code, rfl⟩

theorem State.ExecOutcome.commit {s u : State} (w : Word) (next : Nat) (hu : s.Keeps u) :
    s.ExecOutcome w (s.commit w next u) := by
  rcases s.commit_cases u w next with ⟨-, h⟩ | ⟨hn, h⟩ <;> rw [h]
  · exact .inl ⟨_, rfl⟩
  · exact .inr (.inr ⟨u, next, hu, hn, rfl⟩)

theorem State.Keeps.rfl' (s : State) : s.Keeps s := ⟨rfl, rfl, rfl, rfl⟩

theorem State.keeps_setReg (s : State) (x : Reg) (v : Byte) : s.Keeps (s.setReg x v) := ⟨rfl, rfl, rfl, rfl⟩

theorem State.keeps_setFlagThenReg (s : State) (f : Byte) (x : Reg) (v : Byte) : s.Keeps (s.setFlagThenReg f x v) :=
  ⟨rfl, rfl, rfl, rfl⟩

theorem State.keeps_setI (s : State) (a : Nat) : s.Keeps (s.setI a) := ⟨rfl, rfl, rfl, rfl⟩

theorem State.keeps_addIndex (s : State) (v : Byte) : s.Keeps (s.addIndex v) := by
  rw [s.addIndex_eq v]
  exact ⟨rfl, rfl, rfl, rfl⟩

theorem State.keeps_writeBytes (s : State) (a : Nat) (bs : List Byte) : s.Keeps (s.writeBytes a bs) := ⟨rfl, rfl, rfl, rfl⟩

theorem State.keeps_loadRegBlock (s : State) (x : Reg) : s.Keeps (s.loadRegBlock x) := by
  constructor <;> simp

theorem State.keeps_push {s u : State} {ret : Word} (h : s.push ret = some u) : s.Keeps u := by
  unfold State.push at h
  split at h
  · injection h with h
    subst h
    exact ⟨rfl, rfl, rfl, rfl⟩
  · cases h

theorem State.keeps_pop {s u : State} {t : Word} (h : s.pop = some (t, u)) : s.Keeps u := by
  unfold State.pop at h
  split at h
  · injection h with h
    injection h with _ h
    subst h
    exact ⟨rfl, rfl, rfl, rfl⟩
  · cases h

/-- Every instruction, in every state, answers a next state, of one of the three shapes. -/
theorem exec_cases (i : Instr) (s : State) : ∃ t, exec i s = .next t ∧ s.ExecOutcome (encode i) t := by
  have commits : ∀ (w : Word) (n : Nat) (u : State), s.Keeps u →
      ∃ t, (Host.Outcome.next (s.commit w n u) : Host.Outcome State Fault Refusal) = .next t ∧ s.ExecOutcome w t :=
    fun w n u hu => ⟨_, rfl, .commit w n hu⟩
  have raises : ∀ (w : Word) (c : Fatal),
      ∃ t, (Host.Outcome.next (s.raise c w) : Host.Outcome State Fault Refusal) = .next t ∧ s.ExecOutcome w t :=
    fun w c => ⟨_, rfl, .raise s w c⟩
  cases i with
  | cls => exact commits _ _ _ ⟨rfl, rfl, rfl, rfl⟩
  | ret =>
    simp only [exec, execRet]
    split
    · exact raises _ _
    · rename_i h; exact commits _ _ _ (State.keeps_pop h)
  | jp nnn => exact commits _ _ _ (.rfl' s)
  | call nnn =>
    simp only [exec, execCall]
    split
    · exact raises _ _
    · rename_i h; exact commits _ _ _ (State.keeps_push h)
  | seImm x nn => exact commits _ _ _ (.rfl' s)
  | sneImm x nn => exact commits _ _ _ (.rfl' s)
  | seReg x y => exact commits _ _ _ (.rfl' s)
  | ldImm x nn => exact commits _ _ _ (s.keeps_setReg _ _)
  | addImm x nn => exact commits _ _ _ (s.keeps_setReg _ _)
  | ldReg x y => exact commits _ _ _ (s.keeps_setReg _ _)
  | or x y => exact commits _ _ _ (s.keeps_setReg _ _)
  | and x y => exact commits _ _ _ (s.keeps_setReg _ _)
  | xor x y => exact commits _ _ _ (s.keeps_setReg _ _)
  | addReg x y => exact commits _ _ _ (s.keeps_setFlagThenReg _ _ _)
  | sub x y => exact commits _ _ _ (s.keeps_setFlagThenReg _ _ _)
  | shr x y => exact commits _ _ _ (s.keeps_setFlagThenReg _ _ _)
  | subn x y => exact commits _ _ _ (s.keeps_setFlagThenReg _ _ _)
  | shl x y => exact commits _ _ _ (s.keeps_setFlagThenReg _ _ _)
  | sneReg x y => exact commits _ _ _ (.rfl' s)
  | ldI nnn => exact commits _ _ _ (s.keeps_setI _)
  | jpV0 nnn => exact commits _ _ _ (.rfl' s)
  | rnd x nn => exact commits _ _ _ ⟨rfl, rfl, rfl, rfl⟩
  | drw x y n =>
    simp only [exec, execDrw]
    split
    · exact commits _ _ _ ⟨rfl, rfl, rfl, rfl⟩
    · exact raises _ _
  | skp x =>
    simp only [exec, execSkp]
    split
    · exact raises _ _
    · exact commits _ _ _ (.rfl' s)
  | sknp x =>
    simp only [exec, execSknp]
    split
    · exact raises _ _
    · exact commits _ _ _ (.rfl' s)
  | ldVxDt x => exact commits _ _ _ (s.keeps_setReg _ _)
  | ldVxK x =>
    simp only [exec, execLdVxK]
    split
    · exact ⟨_, rfl, .inr (.inl rfl)⟩
    · exact commits _ _ _ (s.keeps_setReg _ _)
  | ldDtVx x => exact commits _ _ _ ⟨rfl, rfl, rfl, rfl⟩
  | ldStVx x => exact commits _ _ _ ⟨rfl, rfl, rfl, rfl⟩
  | addI x => exact commits _ _ _ (s.keeps_addIndex _)
  | ldF x =>
    simp only [exec, execLdF]
    split
    · exact raises _ _
    · exact commits _ _ _ (s.keeps_setI _)
  | ldB x =>
    simp only [exec, execLdB]
    split
    · exact commits _ _ _ (s.keeps_writeBytes _ _)
    · exact raises _ _
  | stRegs x =>
    simp only [exec, execStRegs]
    split
    · exact commits _ _ _ (s.keeps_writeBytes _ _)
    · exact raises _ _
  | ldRegs x =>
    simp only [exec, execLdRegs]
    split
    · exact commits _ _ _ (s.keeps_loadRegBlock x)
    · exact raises _ _

/-! ### The cycle (R100) -/

theorem step_halted {s : State} (h : s.fault.isSome = true) : step s = .next s.stayHalted := if_pos h

theorem step_fetch_fails {s : State} (h : s.fault = none) (hpc : 0xFFF ≤ s.pc.toNat) :
    step s = .next (s.raise .addressRange s.failedFetchWord) := by
  have hin : s.fetchInMemory = false := by
    rw [Bool.eq_false_iff]
    intro hc
    have := s.fetchInMemory_iff.mp hc
    omega
  simp [step, cycle, h, hin]

theorem step_runs {s : State} (h : s.fault = none) (hpc : s.pc.toNat ≤ 0xFFE) : step s = runWord s s.fetchWord := by
  simp [step, cycle, h, s.fetchInMemory_iff.mpr hpc]

theorem runWord_known {s : State} {w : Word} {i : Instr} (h : decode w = .known i) : runWord s w = afterExec (exec i s) := by
  simp [runWord, h]

/-- The decoder's `UNKNOWN` carries the word that was decoded (R74). -/
theorem decode_unknown_eq {w v : Word} (h : decode w = .unknown v) : v = w := by
  unfold decode at h
  split at h <;> try cases h
  · unfold decodeFamily0 at h
    split at h
    · cases h
    · split at h <;> cases h
      rfl
  · split at h <;> cases h
    rfl
  · unfold decodeFamily8 at h
    split at h <;> cases h
    rfl
  · split at h <;> cases h
    rfl
  · unfold decodeFamilyE at h
    split at h <;> cases h
    rfl
  · unfold decodeFamilyF at h
    split at h <;> cases h
    rfl
  · rfl

theorem runWord_unknown {s : State} {w v : Word} (h : decode w = .unknown v) :
    runWord s w = .next (s.raise .unknownInstruction w) := by
  simp [runWord, h, State.unknown, decode_unknown_eq h]

/-- Every step answers a next state: the core was halted, it raised, or it ran an instruction to its end and ticked. -/
theorem step_cases (s : State) : ∃ t, step s = .next t ∧
    ((s.fault.isSome = true ∧ t = s.stayHalted) ∨
     (s.fault = none ∧ ∃ (code : Fatal) (w : Word), t = s.raise code w ∧
       ((s.pc.toNat ≤ 0xFFE ∧ w = s.fetchWord) ∨ (0xFFF ≤ s.pc.toNat ∧ w = s.failedFetchWord) ∨
        (s.pc.toNat ≤ 0xFFE ∧ ∃ i, decode s.fetchWord = .known i ∧ w = encode i))) ∨
     (s.fault = none ∧ s.pc.toNat ≤ 0xFFE ∧ ∃ (i : Instr) (u : State), decode s.fetchWord = .known i ∧
       exec i s = .next u ∧ u.fault = none ∧ t = u.tick)) := by
  by_cases hf : s.fault.isSome = true
  · exact ⟨_, step_halted hf, .inl ⟨hf, rfl⟩⟩
  · have hnone : s.fault = none := by simpa using hf
    by_cases hpc : s.pc.toNat ≤ 0xFFE
    · rw [step_runs hnone hpc]
      rcases hd : decode s.fetchWord with i | v
      rotate_left
      · rw [runWord_unknown hd]
        exact ⟨_, rfl, .inr (.inl ⟨hnone, _, _, rfl, .inl ⟨hpc, rfl⟩⟩)⟩
      · rw [runWord_known hd]
        obtain ⟨u, hu, hcases⟩ := exec_cases i s
        rw [hu]
        rcases hcases with ⟨code, rfl⟩ | rfl | ⟨v, n, hk, -, rfl⟩
        · exact ⟨_, rfl, .inr (.inl ⟨hnone, code, _, rfl, .inr (.inr ⟨hpc, i, rfl, rfl⟩)⟩)⟩
        · exact ⟨s.hold.tick, by simp [afterExec, hnone], .inr (.inr ⟨hnone, hpc, i, _, rfl, hu, by simpa using hnone, rfl⟩)⟩
        · have hv : (v.advance n).fault = none := by simp [hk.fault, hnone]
          exact ⟨(v.advance n).tick, by simp [afterExec, hk.fault, hnone], .inr (.inr ⟨hnone, hpc, i, _, rfl, hu, hv, rfl⟩)⟩
    · rw [step_fetch_fails hnone (by omega)]
      exact ⟨_, rfl, .inr (.inl ⟨hnone, _, _, rfl, .inr (.inl ⟨by omega, rfl⟩)⟩)⟩

/-- A run of `k + 1` cycles is one cycle and a run of `k`. -/
theorem run_succ (M : Host.Core) {s t : M.State} (k : Nat) (h : M.step s = .next t) : M.run (k + 1) s = M.run k t := by
  simp only [Host.Core.run, h]

end Sys2Proof.Machine
end

