-- ==== Sys2Proof/Laws/PerInstr.lean ====
section
/-! SUPPORT. The per-instruction family `OpcodeRowOf`: the word of an instruction is covered by the row of the opcode map
that bears the instruction's name (spec/30_encoding.md rules R76, R82). -/

namespace Sys2Proof.Laws.OpcodeRowOf

/-- Some row of the opcode map bears the instruction's mnemonic and covers the instruction's word. -/
def Statement (i : Instr) : Prop := ∃ r ∈ opcodeRows, r.mnemonic = i.mnemonic ∧ r.covers (encode i) = true

theorem cls : Statement .cls :=
  ⟨⟨"CLS", 0xFFFF#16, 0x00E0#16⟩, by decide, rfl, rfl⟩

theorem ret : Statement .ret :=
  ⟨⟨"RET", 0xFFFF#16, 0x00EE#16⟩, by decide, rfl, rfl⟩

theorem jp (nnn : Addr) : Statement (.jp nnn) :=
  ⟨⟨"JP", 0xF000#16, 0x1000#16⟩, by decide, rfl, by simp only [OpcodeRow.covers, encode, formatA_maskF000]; rfl⟩

theorem call (nnn : Addr) : Statement (.call nnn) :=
  ⟨⟨"CALL", 0xF000#16, 0x2000#16⟩, by decide, rfl, by simp only [OpcodeRow.covers, encode, formatA_maskF000]; rfl⟩

theorem seImm (x : Reg) (nn : Byte) : Statement (.seImm x nn) :=
  ⟨⟨"SE_IMM", 0xF000#16, 0x3000#16⟩, by decide, rfl, by simp only [OpcodeRow.covers, encode, formatXI_maskF000]; rfl⟩

theorem sneImm (x : Reg) (nn : Byte) : Statement (.sneImm x nn) :=
  ⟨⟨"SNE_IMM", 0xF000#16, 0x4000#16⟩, by decide, rfl, by simp only [OpcodeRow.covers, encode, formatXI_maskF000]; rfl⟩

theorem seReg (x y : Reg) : Statement (.seReg x y) :=
  ⟨⟨"SE_REG", 0xF00F#16, 0x5000#16⟩, by decide, rfl, by simp only [OpcodeRow.covers, encode, formatXY_maskF00F]; rfl⟩

theorem ldImm (x : Reg) (nn : Byte) : Statement (.ldImm x nn) :=
  ⟨⟨"LD_IMM", 0xF000#16, 0x6000#16⟩, by decide, rfl, by simp only [OpcodeRow.covers, encode, formatXI_maskF000]; rfl⟩

theorem addImm (x : Reg) (nn : Byte) : Statement (.addImm x nn) :=
  ⟨⟨"ADD_IMM", 0xF000#16, 0x7000#16⟩, by decide, rfl, by simp only [OpcodeRow.covers, encode, formatXI_maskF000]; rfl⟩

theorem ldReg (x y : Reg) : Statement (.ldReg x y) :=
  ⟨⟨"LD_REG", 0xF00F#16, 0x8000#16⟩, by decide, rfl, by simp only [OpcodeRow.covers, encode, formatXY_maskF00F]; rfl⟩

theorem or (x y : Reg) : Statement (.or x y) :=
  ⟨⟨"OR", 0xF00F#16, 0x8001#16⟩, by decide, rfl, by simp only [OpcodeRow.covers, encode, formatXY_maskF00F]; rfl⟩

theorem and (x y : Reg) : Statement (.and x y) :=
  ⟨⟨"AND", 0xF00F#16, 0x8002#16⟩, by decide, rfl, by simp only [OpcodeRow.covers, encode, formatXY_maskF00F]; rfl⟩

theorem xor (x y : Reg) : Statement (.xor x y) :=
  ⟨⟨"XOR", 0xF00F#16, 0x8003#16⟩, by decide, rfl, by simp only [OpcodeRow.covers, encode, formatXY_maskF00F]; rfl⟩

theorem addReg (x y : Reg) : Statement (.addReg x y) :=
  ⟨⟨"ADD_REG", 0xF00F#16, 0x8004#16⟩, by decide, rfl, by simp only [OpcodeRow.covers, encode, formatXY_maskF00F]; rfl⟩

theorem sub (x y : Reg) : Statement (.sub x y) :=
  ⟨⟨"SUB", 0xF00F#16, 0x8005#16⟩, by decide, rfl, by simp only [OpcodeRow.covers, encode, formatXY_maskF00F]; rfl⟩

theorem shr (x y : Reg) : Statement (.shr x y) :=
  ⟨⟨"SHR", 0xF00F#16, 0x8006#16⟩, by decide, rfl, by simp only [OpcodeRow.covers, encode, formatXY_maskF00F]; rfl⟩

theorem subn (x y : Reg) : Statement (.subn x y) :=
  ⟨⟨"SUBN", 0xF00F#16, 0x8007#16⟩, by decide, rfl, by simp only [OpcodeRow.covers, encode, formatXY_maskF00F]; rfl⟩

theorem shl (x y : Reg) : Statement (.shl x y) :=
  ⟨⟨"SHL", 0xF00F#16, 0x800E#16⟩, by decide, rfl, by simp only [OpcodeRow.covers, encode, formatXY_maskF00F]; rfl⟩

theorem sneReg (x y : Reg) : Statement (.sneReg x y) :=
  ⟨⟨"SNE_REG", 0xF00F#16, 0x9000#16⟩, by decide, rfl, by simp only [OpcodeRow.covers, encode, formatXY_maskF00F]; rfl⟩

theorem ldI (nnn : Addr) : Statement (.ldI nnn) :=
  ⟨⟨"LD_I", 0xF000#16, 0xA000#16⟩, by decide, rfl, by simp only [OpcodeRow.covers, encode, formatA_maskF000]; rfl⟩

theorem jpV0 (nnn : Addr) : Statement (.jpV0 nnn) :=
  ⟨⟨"JP_V0", 0xF000#16, 0xB000#16⟩, by decide, rfl, by simp only [OpcodeRow.covers, encode, formatA_maskF000]; rfl⟩

theorem rnd (x : Reg) (nn : Byte) : Statement (.rnd x nn) :=
  ⟨⟨"RND", 0xF000#16, 0xC000#16⟩, by decide, rfl, by simp only [OpcodeRow.covers, encode, formatXI_maskF000]; rfl⟩

theorem drw (x y : Reg) (n : Nibble) : Statement (.drw x y n) :=
  ⟨⟨"DRW", 0xF000#16, 0xD000#16⟩, by decide, rfl, by simp only [OpcodeRow.covers, encode, formatXY_maskF000]; rfl⟩

theorem skp (x : Reg) : Statement (.skp x) :=
  ⟨⟨"SKP", 0xF0FF#16, 0xE09E#16⟩, by decide, rfl, by simp only [OpcodeRow.covers, encode, formatXI_maskF0FF]; rfl⟩

theorem sknp (x : Reg) : Statement (.sknp x) :=
  ⟨⟨"SKNP", 0xF0FF#16, 0xE0A1#16⟩, by decide, rfl, by simp only [OpcodeRow.covers, encode, formatXI_maskF0FF]; rfl⟩

theorem ldVxDt (x : Reg) : Statement (.ldVxDt x) :=
  ⟨⟨"LD_VX_DT", 0xF0FF#16, 0xF007#16⟩, by decide, rfl, by simp only [OpcodeRow.covers, encode, formatXI_maskF0FF]; rfl⟩

theorem ldVxK (x : Reg) : Statement (.ldVxK x) :=
  ⟨⟨"LD_VX_K", 0xF0FF#16, 0xF00A#16⟩, by decide, rfl, by simp only [OpcodeRow.covers, encode, formatXI_maskF0FF]; rfl⟩

theorem ldDtVx (x : Reg) : Statement (.ldDtVx x) :=
  ⟨⟨"LD_DT_VX", 0xF0FF#16, 0xF015#16⟩, by decide, rfl, by simp only [OpcodeRow.covers, encode, formatXI_maskF0FF]; rfl⟩

theorem ldStVx (x : Reg) : Statement (.ldStVx x) :=
  ⟨⟨"LD_ST_VX", 0xF0FF#16, 0xF018#16⟩, by decide, rfl, by simp only [OpcodeRow.covers, encode, formatXI_maskF0FF]; rfl⟩

theorem addI (x : Reg) : Statement (.addI x) :=
  ⟨⟨"ADD_I", 0xF0FF#16, 0xF01E#16⟩, by decide, rfl, by simp only [OpcodeRow.covers, encode, formatXI_maskF0FF]; rfl⟩

theorem ldF (x : Reg) : Statement (.ldF x) :=
  ⟨⟨"LD_F", 0xF0FF#16, 0xF029#16⟩, by decide, rfl, by simp only [OpcodeRow.covers, encode, formatXI_maskF0FF]; rfl⟩

theorem ldB (x : Reg) : Statement (.ldB x) :=
  ⟨⟨"LD_B", 0xF0FF#16, 0xF033#16⟩, by decide, rfl, by simp only [OpcodeRow.covers, encode, formatXI_maskF0FF]; rfl⟩

theorem stRegs (x : Reg) : Statement (.stRegs x) :=
  ⟨⟨"ST_REGS", 0xF0FF#16, 0xF055#16⟩, by decide, rfl, by simp only [OpcodeRow.covers, encode, formatXI_maskF0FF]; rfl⟩

theorem ldRegs (x : Reg) : Statement (.ldRegs x) :=
  ⟨⟨"LD_REGS", 0xF0FF#16, 0xF065#16⟩, by decide, rfl, by simp only [OpcodeRow.covers, encode, formatXI_maskF0FF]; rfl⟩

end Sys2Proof.Laws.OpcodeRowOf
end

