-- ==== Sys2Proof/Tests/Slice0.lean ====
section
/-! SUPPORT. Tests of the model. Expected results are the vectors of spec/95_test_vectors.md (V-…) and the examples of the
rules (R…); each is one decoding or one step on a small state. At the end, for every obligation with hypotheses, a witness
that meets them all, at the boundary values of its clauses. -/

namespace Sys2Proof.Tests

open Sys2Proof.Machine

/-! ### Helpers -/

/-- The outcome is a next state with the property. -/
def nextWith (o : Host.Outcome State Fault Refusal) (p : State → Bool) : Bool :=
  match o with
  | .next t => p t
  | _ => false

/-- The reset state with registers set, in order. -/
def withRegs (rs : List (Reg × Byte)) (s : State := State.reset) : State :=
  rs.foldl (fun t r => t.setReg r.1 r.2) s

/-- The reset state with bytes stored from an address on. -/
def withBytes (a : Nat) (bs : List Byte) (s : State := State.reset) : State := s.writeBytes a bs

/-- The state with another `pc`. -/
def standingAt (pc : Word) (s : State := State.reset) : State := { s with pc := pc }

/-- The state with another `I`. -/
def indexing (a : Nat) (s : State := State.reset) : State := s.setI a

/-- The state with these keys pressed. -/
def pressing (ks : List (Fin 16)) (s : State := State.reset) : State :=
  { s with keys := ks.foldl (fun v k => v.set k.val true) s.keys }

/-- One step with the word `w` at `pc`. -/
def stepOf (w : Nat) (s : State := State.reset) : Host.Outcome State Fault Refusal := step (s.withFetchWord 16 w)

/-- The step raised: the record is latched, `pc` kept. -/
def raised (code : Fatal) (pc w : Word) (t : State) : Bool :=
  t.fault == some { code := code, atPc := pc, word := w } && t.status == .fatal && t.pc == pc && !t.tone

/-- The step completed with the next `pc`. -/
def okAt (pc : Word) (t : State) : Bool := t.fault == none && t.status == .ok && t.pc == pc

/-- The byte an address holds. -/
def holds (t : State) (a : Nat) (bs : List Byte) : Bool :=
  (List.range bs.length).all fun k => some (t.readByte (a + k)) == bs[k]?

/-! ### Decoding: words written out from the opcode map (R76; V-E1 to V-E19) -/

theorem test_decode_family0 : decode 0b0000000011100000#16 = .known .cls ∧ decode 0b0000000011101110#16 = .known .ret := by
  decide
theorem test_decode_jp : decode 0b0001101010111100#16 = .known (.jp 0xABC#12) := by decide
theorem test_decode_call : decode 0b0010101010111100#16 = .known (.call 0xABC#12) := by decide
theorem test_decode_seImm : decode 0b0011101001000010#16 = .known (.seImm 0xA 0x42#8) := by decide
theorem test_decode_sneImm : decode 0b0100101001000010#16 = .known (.sneImm 0xA 0x42#8) := by decide
theorem test_decode_seReg : decode 0b0101101010110000#16 = .known (.seReg 0xA 0xB) := by decide
theorem test_decode_ldImm : decode 0b0110101001000010#16 = .known (.ldImm 0xA 0x42#8) := by decide
theorem test_decode_addImm : decode 0b0111101001000010#16 = .known (.addImm 0xA 0x42#8) := by decide
theorem test_decode_ldReg : decode 0b1000101010110000#16 = .known (.ldReg 0xA 0xB) := by decide
theorem test_decode_or : decode 0b1000101010110001#16 = .known (.or 0xA 0xB) := by decide
theorem test_decode_and : decode 0b1000101010110010#16 = .known (.and 0xA 0xB) := by decide
theorem test_decode_xor : decode 0b1000101010110011#16 = .known (.xor 0xA 0xB) := by decide
theorem test_decode_addReg : decode 0b1000101010110100#16 = .known (.addReg 0xA 0xB) := by decide
theorem test_decode_sub : decode 0b1000101010110101#16 = .known (.sub 0xA 0xB) := by decide
theorem test_decode_shr : decode 0b1000101010110110#16 = .known (.shr 0xA 0xB) := by decide
theorem test_decode_subn : decode 0b1000101010110111#16 = .known (.subn 0xA 0xB) := by decide
theorem test_decode_shl : decode 0b1000101010111110#16 = .known (.shl 0xA 0xB) := by decide
theorem test_decode_sneReg : decode 0b1001101010110000#16 = .known (.sneReg 0xA 0xB) := by decide
theorem test_decode_ldI : decode 0b1010101010111100#16 = .known (.ldI 0xABC#12) := by decide
theorem test_decode_jpV0 : decode 0b1011101010111100#16 = .known (.jpV0 0xABC#12) := by decide
theorem test_decode_rnd : decode 0b1100101001000010#16 = .known (.rnd 0xA 0x42#8) := by decide
theorem test_decode_drw : decode 0b1101101010110101#16 = .known (.drw 0xA 0xB 0x5#4) ∧
    decode 0b1101101010110000#16 = .known (.drw 0xA 0xB 0x0#4) := by decide
theorem test_decode_skp : decode 0b1110101010011110#16 = .known (.skp 0xA) := by decide
theorem test_decode_sknp : decode 0b1110101010100001#16 = .known (.sknp 0xA) := by decide
theorem test_decode_ldVxDt : decode 0b1111101000000111#16 = .known (.ldVxDt 0xA) := by decide
theorem test_decode_ldVxK : decode 0b1111101000001010#16 = .known (.ldVxK 0xA) := by decide
theorem test_decode_ldDtVx : decode 0b1111101000010101#16 = .known (.ldDtVx 0xA) := by decide
theorem test_decode_ldStVx : decode 0b1111101000011000#16 = .known (.ldStVx 0xA) := by decide
theorem test_decode_addI : decode 0b1111101000011110#16 = .known (.addI 0xA) := by decide
theorem test_decode_ldF : decode 0b1111101000101001#16 = .known (.ldF 0xA) := by decide
theorem test_decode_ldB : decode 0b1111101000110011#16 = .known (.ldB 0xA) := by decide
theorem test_decode_stRegs : decode 0b1111101001010101#16 = .known (.stRegs 0xA) := by decide
theorem test_decode_ldRegs : decode 0b1111101001100101#16 = .known (.ldRegs 0xA) := by decide

/-- V-E3, V-E8, V-E12: the words beside the patterns of families 0, 5, 8 and 9. -/
theorem test_decode_unknown_0589 : ([0x0000, 0x00E1, 0x01E0, 0x0FEE, 0x0123, 0x5AB1, 0x5ABF, 0x9AB1, 0x9ABF, 0x8AB8, 0x8AB9,
    0x8ABA, 0x8ABB, 0x8ABC, 0x8ABD, 0x8ABF] : List Word).all (fun w => decode w == .unknown w) = true := by decide
/-- V-E17, V-E19: the words beside the patterns of families E and F. -/
theorem test_decode_unknown_EF : ([0xEA9F, 0xEA00, 0xEAFF, 0xFA00, 0xFA08, 0xFA1F, 0xFA30, 0xFA75, 0xFA85, 0xFAFF,
    0xFFFF] : List Word).all (fun w => decode w == .unknown w) = true := by decide

/-- The byte form: big-endian, the rest of the list kept, too few bytes and an unknown word rejected by name (R54, R70). -/
theorem test_decode_bytes :
    decodeBytes [0xD1#8, 0x25#8, 0x77#8] = .ok (.drw 1 2 0x5#4, [0x77#8]) ∧
    decodeBytes [0x00#8] = .error (.tooFewBytes 1) ∧ decodeBytes [] = .error (.tooFewBytes 0) ∧
    decodeBytes [0x51#8, 0x21#8] = .error (.unknownWord 0x5121#16) := by decide

theorem test_decode_table_word : decodeTableWord 16 0x8AB4 = some (.addReg 0xA 0xB) ∧ decodeTableWord 16 0x5121 = none ∧
    decodeTableWord 8 0x6C12 = none := by decide

/-! ### Well-formedness: an ill-formed term for each check -/

/-- The opcode map: an unknown word of each family that has one (R76, R77), and a known word. -/
theorem test_wf_word : ([0x0000, 0x5121, 0x8AB8, 0x9AB1, 0xEA9F, 0xFA00] : List Word).all (fun w => !wordWf w) = true ∧
    wordWf 0x00E0#16 = true ∧ wordWf 0x5120#16 = true := by decide

/-- The opcode map has 34 rows, and no two cover a common word (R76). -/
theorem test_wf_rows : opcodeRows.length = 34 ∧ opcodeRows.Pairwise (fun r q => r.disjoint q = true) := by decide

/-- `FONT_BASE` at most 0x1B0 (R7). -/
theorem test_wf_config : Config.wf { defaultConfig with fontBase := 0x1B1 } = false ∧
    Config.wf { defaultConfig with fontBase := 0x1B0 } = true ∧ Config.wf defaultConfig = true := by decide

/-- A ROM image of 3585 bytes is too long, one of 3584 is not (R232; S9). -/
theorem test_wf_rom : romWf (List.replicate 3585 0x00#8) = false ∧ romWf (List.replicate 3584 0x00#8) = true := by
  rw [romWf, romWf, List.length_replicate, List.length_replicate]
  decide

/-- The canonical form of memory: not in rising order, an address twice, an address above 0xFFF, a cell equal to what its
address reads as unlisted (in the font and outside it). -/
theorem test_wf_memory : Memory.wf defaultConfig [(0x301, 1#8), (0x300, 1#8)] = false ∧
    Memory.wf defaultConfig [(0x300, 1#8), (0x300, 2#8)] = false ∧ Memory.wf defaultConfig [(0x1000, 1#8)] = false ∧
    Memory.wf defaultConfig [(0x300, 0#8)] = false ∧ Memory.wf defaultConfig [(0x050, 0xF0#8)] = false ∧
    Memory.wf defaultConfig [(0x050, 0#8), (0x300, 1#8), (0xFFF, 2#8)] = true := by decide

/-- Writing what an unlisted address reads as removes its cell; equal memories are equal lists. -/
theorem test_memory_canonical : Memory.write defaultConfig [(0x300, 7#8)] 0x300 0#8 = [] ∧
    Memory.write defaultConfig [(0x300, 7#8)] 0x200 1#8 = [(0x200, 1#8), (0x300, 7#8)] ∧
    Memory.write defaultConfig [] 0x050 0xF0#8 = [] := by decide

/-! ### The cycle -/

/-- V-T9: a raising cycle does not tick. -/
theorem test_unknown_word : nextWith (stepOf 0x0000 { State.reset with ST := 1, DT := 3 }) (fun t =>
    raised .unknownInstruction 0x200#16 0x0000#16 t && t.ST == 1#8 && t.DT == 3#8) = true := by decide

/-- V-F12: the failed fetch at 0xFFF. -/
theorem test_fetch_fails : nextWith (step (standingAt 0xFFF#16 (withBytes 0xFFF [0xAB#8])))
    (raised .addressRange 0xFFF#16 0xAB00#16) = true := by decide

/-- V-H1: a halted core. -/
theorem test_halted : step (State.reset.raise .stackOverflow 0x2300#16) =
    .next (State.reset.raise .stackOverflow 0x2300#16) := rfl

/-- V-F16: fetch at an odd `pc`. -/
theorem test_fetch_odd : nextWith (step (standingAt 0x201#16 (withBytes 0x201 [0x61#8, 0x2A#8])))
    (fun t => okAt 0x203#16 t && t.reg 1 == 0x2A#8) = true := by decide

/-- V-T8: the tick and the tone of an ordinary cycle. -/
theorem test_tick : nextWith (stepOf 0x6100 { State.reset with ST := 1, DT := 1 })
    (fun t => okAt 0x202#16 t && t.ST == 0#8 && t.DT == 0#8 && t.tone) = true := by decide

/-! ### Control transfer -/

/-- V-F1, V-F11. -/
theorem test_jp : nextWith (stepOf 0x1ABC) (okAt 0xABC#16) = true ∧ nextWith (stepOf 0x1FFF) (okAt 0xFFF#16) = true := by
  decide
/-- V-F13: a transfer at 0xFFE. -/
theorem test_jp_top : nextWith (stepOf 0x1200 (standingAt 0xFFE#16)) (okAt 0x200#16) = true := by decide

/-- V-F2. -/
theorem test_ret : nextWith (stepOf 0x00EE { standingAt 0x20C#16 with sp := 1, stack := State.reset.stack.set 0 0x206#16 })
    (fun t => okAt 0x206#16 t && t.sp == 0 && t.stack[0] == 0x206#16) = true := by decide
/-- V-F3, V-F14 (second cycle). -/
theorem test_ret_raises : nextWith (stepOf 0x00EE) (raised .stackUnderflow 0x200#16 0x00EE#16) = true ∧
    nextWith (stepOf 0x00EE { State.reset with sp := 1, stack := State.reset.stack.set 0 0x1000#16 })
      (fun t => raised .addressRange 0x200#16 0x00EE#16 t && t.sp == 1) = true := by decide

/-- V-F5. -/
theorem test_call : nextWith (stepOf 0x2300 { State.reset with sp := 15 })
    (fun t => okAt 0x300#16 t && t.sp == 16 && t.stack[15] == 0x202#16) = true := by decide
/-- V-F6, V-F14 (first cycle). -/
theorem test_call_limits : nextWith (stepOf 0x2300 { State.reset with sp := 16 }) (fun t =>
      raised .stackOverflow 0x200#16 0x2300#16 t && t.sp == 16 && t.stack == State.reset.stack) = true ∧
    nextWith (stepOf 0x2200 (standingAt 0xFFE#16)) (fun t => okAt 0x200#16 t && t.stack[0] == 0x1000#16) = true := by decide

/-- V-F7, V-F8. -/
theorem test_jpV0 : nextWith (stepOf 0xB300 (withRegs [(0, 0x10)])) (okAt 0x310#16) = true ∧
    nextWith (stepOf 0xBFFF) (okAt 0xFFF#16) = true := by decide
/-- V-F9, V-F10. -/
theorem test_jpV0_raises : nextWith (stepOf 0xBFFF (withRegs [(0, 0x01)])) (raised .addressRange 0x200#16 0xBFFF#16) = true ∧
    nextWith (stepOf 0xBF01 (withRegs [(0, 0xFF)])) (raised .addressRange 0x200#16 0xBF01#16) = true := by decide

/-- V-F17, V-F18. -/
theorem test_seImm : nextWith (stepOf 0x3142 (withRegs [(1, 0x42)])) (okAt 0x204#16) = true ∧
    nextWith (stepOf 0x3142 (withRegs [(1, 0x43)])) (okAt 0x202#16) = true := by decide
/-- V-F27, V-F28: a taken skip at 0xFFC raises, one not taken does not. -/
theorem test_seImm_top : nextWith (stepOf 0x3100 (standingAt 0xFFC#16)) (raised .addressRange 0xFFC#16 0x3100#16) = true ∧
    nextWith (stepOf 0x3101 (standingAt 0xFFC#16)) (okAt 0xFFE#16) = true := by decide
/-- V-F19, V-F20. -/
theorem test_sneImm : nextWith (stepOf 0x4142 (withRegs [(1, 0x43)])) (okAt 0x204#16) = true ∧
    nextWith (stepOf 0x4142 (withRegs [(1, 0x42)])) (okAt 0x202#16) = true := by decide
/-- V-F21, V-F22. -/
theorem test_seReg : nextWith (stepOf 0x5120 (withRegs [(1, 7), (2, 7)])) (okAt 0x204#16) = true ∧
    nextWith (stepOf 0x5120 (withRegs [(1, 7), (2, 8)])) (okAt 0x202#16) = true := by decide
/-- V-F23, V-F24. -/
theorem test_sneReg : nextWith (stepOf 0x9120 (withRegs [(1, 7), (2, 8)])) (okAt 0x204#16) = true ∧
    nextWith (stepOf 0x9120 (withRegs [(1, 7), (2, 7)])) (okAt 0x202#16) = true := by decide

/-! ### Registers -/

/-- V-A1, V-A2. -/
theorem test_ldImm : nextWith (stepOf 0x63C8) (fun t => okAt 0x202#16 t && t.reg 3 == 0xC8#8) = true ∧
    nextWith (stepOf 0x6FAB) (fun t => okAt 0x202#16 t && t.reg 15 == 0xAB#8) = true := by decide
/-- V-F15. -/
theorem test_ldImm_top : nextWith (stepOf 0x6107 (standingAt 0xFFE#16))
    (fun t => raised .addressRange 0xFFE#16 0x6107#16 t && t.reg 1 == 0#8) = true := by decide
/-- V-A3, V-A5. -/
theorem test_addImm :
    nextWith (stepOf 0x7102 (withRegs [(1, 0xFF), (15, 0x55)])) (fun t => t.reg 1 == 1#8 && t.reg 15 == 0x55#8) = true ∧
    nextWith (stepOf 0x7F01 (withRegs [(15, 0xFF)])) (fun t => t.reg 15 == 0#8) = true := by decide
/-- V-A6. -/
theorem test_ldReg : nextWith (stepOf 0x8120 (withRegs [(1, 0x11), (2, 0x22)]))
    (fun t => t.reg 1 == 0x22#8 && t.reg 2 == 0x22#8) = true := by decide
/-- V-A7, `OR`. -/
theorem test_or : nextWith (stepOf 0x8121 (withRegs [(1, 0xF0), (2, 0x0F), (15, 0x77)]))
    (fun t => t.reg 1 == 0xFF#8 && t.reg 15 == 0x77#8) = true := by decide
/-- V-A7, `AND`. -/
theorem test_and : nextWith (stepOf 0x8122 (withRegs [(1, 0xF0), (2, 0x3C), (15, 0x77)]))
    (fun t => t.reg 1 == 0x30#8 && t.reg 15 == 0x77#8) = true := by decide
/-- V-A7, `XOR`. -/
theorem test_xor : nextWith (stepOf 0x8123 (withRegs [(1, 0xF0), (2, 0x3C), (15, 0x77)]))
    (fun t => t.reg 1 == 0xCC#8 && t.reg 15 == 0x77#8) = true := by decide
/-- V-A8, V-A8b. -/
theorem test_addReg :
    nextWith (stepOf 0x8124 (withRegs [(1, 0xFF), (2, 0x01)])) (fun t => t.reg 1 == 0#8 && t.reg 15 == 1#8) = true ∧
    nextWith (stepOf 0x8124 (withRegs [(1, 0x10), (2, 0x20), (15, 0x77)]))
      (fun t => t.reg 1 == 0x30#8 && t.reg 15 == 0#8) = true := by decide
/-- V-A8d, V-A8e: the flag register as operand and as destination. -/
theorem test_addReg_flag :
    nextWith (stepOf 0x81F4 (withRegs [(1, 0xF0), (15, 0x20)])) (fun t => t.reg 1 == 0x10#8 && t.reg 15 == 1#8) = true ∧
    nextWith (stepOf 0x8F24 (withRegs [(15, 0xF0), (2, 0x20)])) (fun t => t.reg 15 == 0x10#8) = true := by decide
/-- V-A9, V-A10. -/
theorem test_sub :
    nextWith (stepOf 0x8125 (withRegs [(1, 5), (2, 5)])) (fun t => t.reg 1 == 0#8 && t.reg 15 == 1#8) = true ∧
    nextWith (stepOf 0x8125 (withRegs [(1, 5), (2, 6)])) (fun t => t.reg 1 == 0xFF#8 && t.reg 15 == 0#8) = true := by decide
/-- V-A11b, V-A11c. -/
theorem test_sub_flag :
    nextWith (stepOf 0x81F5 (withRegs [(1, 6), (15, 5)])) (fun t => t.reg 1 == 1#8 && t.reg 15 == 1#8) = true ∧
    nextWith (stepOf 0x8F25 (withRegs [(15, 0x0A), (2, 3)])) (fun t => t.reg 15 == 7#8) = true := by decide
/-- V-A12, V-A13. -/
theorem test_subn :
    nextWith (stepOf 0x8127 (withRegs [(1, 5), (2, 6)])) (fun t => t.reg 1 == 1#8 && t.reg 15 == 1#8) = true ∧
    nextWith (stepOf 0x8127 (withRegs [(1, 6), (2, 5)])) (fun t => t.reg 1 == 0xFF#8 && t.reg 15 == 0#8) = true := by decide
/-- V-A13b, V-A13c. -/
theorem test_subn_flag :
    nextWith (stepOf 0x8127 (withRegs [(1, 5), (2, 5)])) (fun t => t.reg 1 == 0#8 && t.reg 15 == 1#8) = true ∧
    nextWith (stepOf 0x8F27 (withRegs [(15, 3), (2, 0x0A)])) (fun t => t.reg 15 == 7#8) = true := by decide
/-- V-A14, V-A15. -/
theorem test_shr :
    nextWith (stepOf 0x8126 (withRegs [(1, 3), (2, 0xFF)]))
      (fun t => t.reg 1 == 1#8 && t.reg 15 == 1#8 && t.reg 2 == 0xFF#8) = true ∧
    nextWith (stepOf 0x8126 (withRegs [(1, 0x80), (2, 0xFF)])) (fun t => t.reg 1 == 0x40#8 && t.reg 15 == 0#8) = true := by
  decide
/-- V-A15b. -/
theorem test_shr_flag : nextWith (stepOf 0x8F26 (withRegs [(15, 6)])) (fun t => t.reg 15 == 3#8) = true := by decide
/-- V-A16, V-A17. -/
theorem test_shl :
    nextWith (stepOf 0x812E (withRegs [(1, 0x81), (2, 0xFF)]))
      (fun t => t.reg 1 == 2#8 && t.reg 15 == 1#8 && t.reg 2 == 0xFF#8) = true ∧
    nextWith (stepOf 0x812E (withRegs [(1, 0x40), (2, 0xFF)])) (fun t => t.reg 1 == 0x80#8 && t.reg 15 == 0#8) = true := by
  decide
/-- V-A17b. -/
theorem test_shl_flag : nextWith (stepOf 0x8F2E (withRegs [(15, 0x81)])) (fun t => t.reg 15 == 2#8) = true := by decide
/-- V-A18, V-A19, V-A20: `RND`'s writes, with the random byte of the vector. -/
theorem test_rnd : (State.reset.drawInto 1 0x0F#8 0xA5#8).reg 1 = 0x05#8 ∧
    (State.reset.drawInto 1 0xFF#8 0xA5#8).reg 1 = 0xA5#8 ∧ (State.reset.drawInto 1 0x00#8 0xFF#8).reg 1 = 0x00#8 := by
  decide
/-- `RND` completes and takes one random byte, whatever the byte is. -/
theorem test_rnd_completes : nextWith (stepOf 0xC10F) (fun t => okAt 0x202#16 t && t.draws == 1) = true := by decide

/-! ### Index register and memory -/

/-- V-M1, V-M1b. -/
theorem test_ldI : nextWith (stepOf 0xA300) (fun t => okAt 0x202#16 t && t.I == 0x300#16) = true ∧
    nextWith (stepOf 0xAFFF) (fun t => okAt 0x202#16 t && t.I == 0xFFF#16) = true := by decide
/-- V-M2, V-M3 with the default parameter. -/
theorem test_addI :
    nextWith (stepOf 0xF11E (indexing 0x100 (withRegs [(1, 3), (15, 9)]))) (fun t => t.I == 0x103#16 && t.reg 15 == 9#8) =
      true ∧
    nextWith (stepOf 0xF11E (indexing 0xFFE (withRegs [(1, 3)]))) (fun t => t.I == 1#16 && t.reg 15 == 0#8) = true := by
  decide
/-- V-M3, V-M4 with the parameter on. -/
theorem test_addI_quirk :
    nextWith (stepOf 0xF11E (indexing 0xFFE (withRegs [(1, 3)] { State.reset with cfg :=
      { defaultConfig with quirkFx1eFlag := true } }))) (fun t => t.I == 1#16 && t.reg 15 == 1#8) = true ∧
    nextWith (stepOf 0xF11E (indexing 0xFFE (withRegs [(1, 1), (15, 9)] { State.reset with cfg :=
      { defaultConfig with quirkFx1eFlag := true } }))) (fun t => t.I == 0xFFF#16 && t.reg 15 == 9#8) = true := by decide
/-- V-M5, V-M5b. -/
theorem test_ldF : nextWith (stepOf 0xF129 (withRegs [(1, 0x0A)])) (fun t => okAt 0x202#16 t && t.I == 0x082#16) = true ∧
    nextWith (stepOf 0xF129 (withRegs [(1, 0x0F)])) (fun t => t.I == 0x09B#16) = true := by decide
/-- V-M6. -/
theorem test_ldF_raises : nextWith (stepOf 0xF129 (withRegs [(1, 0x10)])) (raised .indexRange 0x200#16 0xF129#16) = true := by
  decide
/-- V-M7, V-M9. -/
theorem test_ldB :
    nextWith (stepOf 0xF133 (indexing 0x300 (withRegs [(1, 0xEA)])))
      (fun t => okAt 0x202#16 t && holds t 0x300 [2, 3, 4] && t.I == 0x300#16) = true ∧
    nextWith (stepOf 0xF133 (indexing 0xFFD (withRegs [(1, 0xFF)]))) (fun t => holds t 0xFFD [2, 5, 5]) = true := by decide
/-- V-M10. -/
theorem test_ldB_raises : nextWith (stepOf 0xF133 (indexing 0xFFE (withRegs [(1, 0xFF)])))
    (fun t => raised .addressRange 0x200#16 0xF133#16 t && holds t 0xFFE [0, 0]) = true := by decide
/-- V-M11. -/
theorem test_stRegs :
    nextWith (stepOf 0xF255 (indexing 0x300 (withBytes 0x303 [0x99#8] (withRegs [(0, 1), (1, 2), (2, 3), (3, 4)]))))
      (fun t => okAt 0x202#16 t && holds t 0x300 [1, 2, 3, 0x99] && t.I == 0x300#16) = true := by decide
/-- V-M15, V-M16. -/
theorem test_stRegs_top : nextWith (stepOf 0xF055 (indexing 0xFFF (withRegs [(0, 0xAA)]))) (fun t => holds t 0xFFF [0xAA]) =
      true ∧
    nextWith (stepOf 0xF155 (indexing 0xFFF (withRegs [(0, 0xAA)])))
      (fun t => raised .addressRange 0x200#16 0xF155#16 t && holds t 0xFFF [0]) = true := by decide
/-- V-M14. -/
theorem test_ldRegs :
    nextWith (stepOf 0xF265 (indexing 0x300 (withBytes 0x300 [9, 8, 7, 6] (withRegs [(3, 0x33)]))))
      (fun t => okAt 0x202#16 t && t.V.toList.take 4 == [9, 8, 7, 0x33] && t.I == 0x300#16) = true := by decide
/-- V-M16. -/
theorem test_ldRegs_raises : nextWith (stepOf 0xF165 (indexing 0xFFF)) (raised .addressRange 0x200#16 0xF165#16) = true := by
  decide

/-! ### Display -/

/-- V-D1. -/
theorem test_cls : nextWith (stepOf 0x00E0 (withRegs [(15, 9)] { State.reset with
      fb := (State.reset.fb.toggle 4 3).toggle 63 31 }))
    (fun t => okAt 0x202#16 t && t.fb == State.reset.fb && t.redraw && t.reg 15 == 9#8) = true := by decide
/-- V-D3: both coordinates are reduced first, and the second row wraps to the top. -/
theorem test_drw_wraps : nextWith (stepOf 0xD122 (indexing 0x300 (withBytes 0x300 [0x80, 0x80] (withRegs [(1, 67), (2, 63)]))))
    (fun t => okAt 0x202#16 t && t.fb == (State.reset.fb.toggle 3 31).toggle 3 0 && t.reg 15 == 0#8 && t.redraw) = true := by
  decide
/-- V-D4, V-D7: a collision, and a sprite that leaves memory. -/
theorem test_drw_flag :
    nextWith (stepOf 0xD121 (indexing 0x300 (withBytes 0x300 [0xC0] { State.reset with fb := State.reset.fb.toggle 0 0 })))
      (fun t => t.fb == State.reset.fb.toggle 1 0 && t.reg 15 == 1#8) = true ∧
    nextWith (stepOf 0xD122 (indexing 0xFFF (withRegs [(15, 7)])))
      (fun t => raised .addressRange 0x200#16 0xD122#16 t && t.reg 15 == 7#8 && !t.redraw) = true := by decide

/-! ### Keypad and timers -/

/-- V-K1, V-K2. -/
theorem test_skp : nextWith (stepOf 0xE19E (pressing [5] (withRegs [(1, 5)]))) (okAt 0x204#16) = true ∧
    nextWith (stepOf 0xE19E (pressing [4] (withRegs [(1, 5)]))) (okAt 0x202#16) = true := by decide
/-- V-K5. -/
theorem test_skp_raises : nextWith (stepOf 0xE19E (withRegs [(1, 0x15)])) (raised .indexRange 0x200#16 0xE19E#16) = true := by
  decide
/-- V-K3, V-K4. -/
theorem test_sknp : nextWith (stepOf 0xE1A1 (withRegs [(1, 5)])) (okAt 0x204#16) = true ∧
    nextWith (stepOf 0xE1A1 (pressing [5] (withRegs [(1, 5)]))) (okAt 0x202#16) = true := by decide
/-- V-K6. -/
theorem test_sknp_raises : nextWith (stepOf 0xE1A1 (withRegs [(1, 0x10)])) (raised .indexRange 0x200#16 0xE1A1#16) = true := by
  decide
/-- V-K7, V-K10: the wait ticks. -/
theorem test_ldVxK_waits : nextWith (stepOf 0xF10A (withRegs [(1, 0x77)] { State.reset with DT := 5, ST := 1 })) (fun t =>
    t.status == .waiting && t.pc == 0x200#16 && t.reg 1 == 0x77#8 && t.DT == 4#8 && t.ST == 0#8 && t.tone) = true := by decide
/-- V-K8, V-K12. -/
theorem test_ldVxK : nextWith (stepOf 0xF10A (pressing [9, 3])) (fun t => okAt 0x202#16 t && t.reg 1 == 3#8) = true ∧
    nextWith (stepOf 0xF10A (standingAt 0xFFE#16 (pressing [1])))
      (fun t => raised .addressRange 0xFFE#16 0xF10A#16 t && t.reg 1 == 0#8) = true := by decide
/-- V-T1, V-T2b. -/
theorem test_ldVxDt : nextWith (stepOf 0xF107 { State.reset with DT := 0x2A })
      (fun t => okAt 0x202#16 t && t.reg 1 == 0x2A#8 && t.DT == 0x29#8) = true ∧
    nextWith (stepOf 0xF107 { State.reset with DT := 1 }) (fun t => t.reg 1 == 1#8 && t.DT == 0#8) = true := by decide
/-- V-T3, V-T4. -/
theorem test_ldDtVx : nextWith (stepOf 0xF115 (withRegs [(1, 0x10)])) (fun t => okAt 0x202#16 t && t.DT == 0x0F#8) = true ∧
    nextWith (stepOf 0xF115 { State.reset with DT := 9 }) (fun t => t.DT == 0#8) = true := by decide
/-- V-T5, V-T6. -/
theorem test_ldStVx : nextWith (stepOf 0xF118 (withRegs [(1, 1)])) (fun t => okAt 0x202#16 t && t.ST == 0#8 && t.tone) =
      true ∧
    nextWith (stepOf 0xF118 { State.reset with ST := 5 }) (fun t => t.ST == 0#8 && !t.tone) = true := by decide

/-! ### Reset and the host (R230, R232; P6, S12) -/

theorem test_boot_empty : State.boot defaultConfig 0 [] = .ok State.reset := rfl
/-- `Reset` with the image 12 00, and the image's first cycle (P6). -/
theorem test_boot_program : (match State.boot defaultConfig 0 [0x12, 0x00] with
    | .ok s => holds s 0x200 [0x12, 0x00] && holds s 0x050 [0xF0] && nextWith (step s) (okAt 0x200#16)
    | .error _ => false) = true := by decide
/-- The word is placed, the latch opened, and the step runs it, at the last place where a word fits. -/
theorem test_withFetchWord :
    nextWith (step ((standingAt 0xFFE#16 (State.reset.raise .stackOverflow 0x2300#16)).withFetchWord 16 0x1200))
      (okAt 0x200#16) = true := by decide


/-! ### Witnesses: for each obligation with hypotheses, states and operands that meet them all, one for each clause, at the
boundary values of the clause -/

/-- The state and word of the cycle statements: the word `w` at `pc`. -/
def fetching (w : Nat) (s : State := State.reset) : State := s.withFetchWord 16 w

theorem witness_EncodeOfDecodeIsWord : decode 0x8AB4#16 = .known (.addReg 0xA 0xB) := by decide

theorem witness_DecodeFollowsOpcodeMap : (⟨"CLS", 0xFFFF#16, 0x00E0#16⟩ : OpcodeRow) ∈ opcodeRows ∧
    0x00E0#16 &&& 0xFFFF#16 = 0x00E0#16 ∧ opcodeRows.all (fun r => !r.covers 0x5121#16) = true := by decide

theorem witness_StepRunsFetchedInstruction :
    (fetching 0x6A42 (standingAt 0xFFC#16)).fault = none ∧
    decode (BitVec.ofNat 16 (((fetching 0x6A42 (standingAt 0xFFC#16)).readByte 0xFFC).toNat * 256 +
      ((fetching 0x6A42 (standingAt 0xFFC#16)).readByte 0xFFD).toNat)) = .known (.ldImm 0xA 0x42#8) ∧
    (fetching 0x6A42 (standingAt 0xFFE#16)).fault = none ∧
    decode (BitVec.ofNat 16 (((fetching 0x6A42 (standingAt 0xFFE#16)).readByte 0xFFE).toNat * 256 +
      ((fetching 0x6A42 (standingAt 0xFFE#16)).readByte 0xFFF).toNat)) = .known (.ldImm 0xA 0x42#8) ∧
    nextWith (exec (.ldImm 0xA 0x42#8) (fetching 0x6A42 (standingAt 0xFFC#16))) (fun t => t.fault == none) = true ∧
    nextWith (exec (.ldImm 0xA 0x42#8) (fetching 0x6A42 (standingAt 0xFFE#16))) (fun t => t.fault != none) = true := by decide

theorem witness_UnknownWordIsFatal :
    (fetching 0x5121 (standingAt 0xFFE#16)).fault = none ∧
    ((fetching 0x5121 (standingAt 0xFFE#16)).readByte 0xFFE).toNat * 256 +
      ((fetching 0x5121 (standingAt 0xFFE#16)).readByte 0xFFF).toNat = (0x5121#16).toNat ∧
    opcodeRows.all (fun r => !r.covers 0x5121#16) = true := by decide

theorem witness_FetchPastTopRaises : (standingAt 0xFFF#16).fault = none ∧ (standingAt 0xFFF#16).pc = 0xFFF#16 := by decide

theorem witness_HaltedCoreStaysHalted : (State.reset.raise .indexRange 0xF129#16).fault =
    some { code := .indexRange, atPc := 0x200#16, word := 0xF129#16 } := by decide

/-- A completed cycle with no timer load, one that loads the delay timer, one that loads the sound timer. -/
theorem witness_CompletedCycleTicksTimers :
    ([0x6A42, 0xFA15, 0xFA18] : List Nat).all (fun w => (fetching w (standingAt 0xFFC#16)).fault == none &&
      nextWith (step (fetching w (standingAt 0xFFC#16))) (fun t => t.fault == none)) = true ∧
    decode (fetching 0x6A42 (standingAt 0xFFC#16)).fetchWord = .known (.ldImm 0xA 0x42#8) ∧
    decode (fetching 0xFA15 (standingAt 0xFFC#16)).fetchWord = .known (.ldDtVx 0xA) ∧
    decode (fetching 0xFA18 (standingAt 0xFFC#16)).fetchWord = .known (.ldStVx 0xA) := by decide

/-- A raising cycle whose word was fetched, and one whose fetch failed. -/
theorem witness_RaisingCycleIsPrecise :
    (fetching 0x6A42 (standingAt 0xFFE#16)).fault = none ∧
    nextWith (step (fetching 0x6A42 (standingAt 0xFFE#16))) (raised .addressRange 0xFFE#16 0x6A42#16) = true ∧
    (standingAt 0xFFF#16).fault = none ∧
    nextWith (step (standingAt 0xFFF#16)) (raised .addressRange 0xFFF#16 0x0000#16) = true := by decide

/-- A state with a program meets the invariant, and its step answers a next state. -/
theorem witness_StepKeepsInvariant : (fetching 0x6A42).Inv ∧ nextWith (step (fetching 0x6A42)) (okAt 0x202#16) = true :=
  ⟨⟨by decide, by decide, by decide, by decide, by decide, fun _ h => (by cases h), by decide⟩, by decide⟩

/-- A run: a program is loaded, a key is pressed, a cycle completes. -/
theorem witness_ReachableStatesMeetInvariant : defaultConfig.wf = true ∧ ∃ t, Reachable defaultConfig t ∧ t.key 3 = true :=
  ⟨by decide, _, .host (.press 3) _ _ (.boot 0 [0x12, 0x00] _ rfl) rfl, by decide⟩

/-- A loaded ROM, and a move of the host from a state with a program. -/
theorem witness_HostMovesKeepInvariant : defaultConfig.wf = true ∧ State.boot defaultConfig 0 [] = .ok State.reset ∧
    (fetching 0x6A42).Inv ∧ HostMove.apply (.press 3) (fetching 0x6A42) = .ok (pressing [3] (fetching 0x6A42)) :=
  ⟨by decide, rfl, ⟨by decide, by decide, by decide, by decide, by decide, fun _ h => (by cases h), by decide⟩, rfl⟩

theorem witness_JumpToSelfIsIdempotent : (fetching 0x1FFE (standingAt 0xFFE#16)).fault = none ∧
    decode (fetching 0x1FFE (standingAt 0xFFE#16)).fetchWord = .known (.jp 0xFFE#12) ∧
    (0xFFE#12).toNat = (fetching 0x1FFE (standingAt 0xFFE#16)).pc.toNat ∧ State.reset.DT = 0#8 ∧ State.reset.ST = 0#8 := by
  decide

/-- A parked core with both timers running, at the last place where a word fits. -/
theorem witness_ParkedCoreOnlyTicks : (fetching 0x1FFE (standingAt 0xFFE#16 { State.reset with DT := 2, ST := 1 })).Parked :=
  ⟨by decide, by decide, by decide⟩

theorem witness_WaitingCyclesOnlyTick : (fetching 0xF10A (standingAt 0xFFE#16)).fault = none ∧
    (fetching 0xF10A (standingAt 0xFFE#16)).pc.toNat ≤ 0xFFE ∧
    decode (fetching 0xF10A (standingAt 0xFFE#16)).fetchWord = .known (.ldVxK 1) ∧
    (∀ j : Fin 16, (fetching 0xF10A (standingAt 0xFFE#16)).keys[j.val] = false) := by decide

theorem witness_OnlyTheirReadersUseInputs : decode (fetching 0x8AB4).fetchWord = .known (.addReg 0xA 0xB) ∧
    nextWith (step (fetching 0x8AB4)) (okAt 0x202#16) = true ∧ decode (fetching 0x5121).fetchWord = .unknown 0x5121#16 ∧
    nextWith (step (fetching 0x5121)) (raised .unknownInstruction 0x200#16 0x5121#16) = true ∧
    0xFFF ≤ (standingAt 0xFFF#16).pc.toNat ∧ (State.reset.raise .indexRange 0xF129#16).fault ≠ none := by decide

theorem witness_StorageChangedOnlyByItsInstructions :
    nextWith (exec (.ldB 1) (indexing 0x300 (withRegs [(1, 0xEA)]))) (fun t => t.mem != State.reset.mem) = true ∧
    nextWith (exec .cls State.reset) (fun t => t.redraw) = true := by decide

theorem witness_CallPushesReturnAddress : ({ State.reset with sp := 15 } : State).sp.val < 16 ∧
    ({ State.reset with sp := 16 } : State).sp.val = 16 := by decide

/-- An empty stack; a full stack whose newest entry is the last address in memory; the same with the first one beyond. -/
theorem witness_ReturnPopsIntoPc : State.reset.sp.val = 0 ∧
    ({ State.reset with sp := 16, stack := State.reset.stack.set 15 0xFFF#16 } : State).sp.val = (15 : Fin 16).val + 1 ∧
    ({ State.reset with sp := 16, stack := State.reset.stack.set 15 0xFFF#16 } : State).stack[(15 : Fin 16).val] = 0xFFF#16 ∧
    ({ State.reset with sp := 16, stack := State.reset.stack.set 15 0x1000#16 } : State).stack[(15 : Fin 16).val] =
      0x1000#16 := by decide

theorem witness_JumpV0AddsRegisterZero : (0xFFF#12).toNat + (State.reset.reg 0).toNat ≤ 0xFFF ∧
    0x1000 ≤ (0xFFF#12).toNat + ((withRegs [(0, 1)]).reg 0).toNat := by decide

/-- For each skip its condition true and false (registers 1 and 2 hold 7, register 3 holds 8), at the last `pc` that goes on
and the first that raises. -/
theorem witness_CompareSkipsAdvancePc :
    (withRegs [(1, 7), (2, 7), (3, 8)]).reg 1 = 7#8 ∧ (withRegs [(1, 7), (2, 7), (3, 8)]).reg 1 ≠ 8#8 ∧
    (withRegs [(1, 7), (2, 7), (3, 8)]).reg 1 = (withRegs [(1, 7), (2, 7), (3, 8)]).reg 2 ∧
    (withRegs [(1, 7), (2, 7), (3, 8)]).reg 1 ≠ (withRegs [(1, 7), (2, 7), (3, 8)]).reg 3 ∧
    (standingAt 0xFFB#16).pc.toNat ≤ 0xFFB ∧ 0xFFC ≤ (standingAt 0xFFC#16).pc.toNat ∧
    (standingAt 0xFFD#16).pc.toNat ≤ 0xFFD ∧ 0xFFE ≤ (standingAt 0xFFE#16).pc.toNat ∧
    nextWith (exec (.seImm 1 7#8) (withRegs [(1, 7)] (standingAt 0xFFB#16))) (okAt 0xFFF#16) = true ∧
    nextWith (exec (.seReg 1 2) (withRegs [(1, 7), (2, 8)] (standingAt 0xFFD#16))) (okAt 0xFFF#16) = true := by decide

theorem witness_CallThenReturnResumes : (standingAt 0xFFD#16 { State.reset with sp := 15 }).pc.toNat ≤ 0xFFD ∧
    (standingAt 0xFFD#16 { State.reset with sp := 15 }).sp.val < 16 := by decide

theorem witness_LoadImmediateSetsRegister : (standingAt 0xFFD#16).pc.toNat ≤ 0xFFD := by decide
theorem witness_AddImmediateWrapsSilently : (standingAt 0xFFD#16).pc.toNat ≤ 0xFFD := by decide
theorem witness_CopyAndLogicSetRegister : (standingAt 0xFFD#16).pc.toNat ≤ 0xFFD := by decide
theorem witness_AddRegisterWritesCarryThenSum : (standingAt 0xFFD#16).pc.toNat ≤ 0xFFD := by decide
theorem witness_SubtractWritesNoBorrowThenDifference : (standingAt 0xFFD#16).pc.toNat ≤ 0xFFD := by decide
theorem witness_ShiftsWriteOutgoingBitThenResult : (standingAt 0xFFD#16).pc.toNat ≤ 0xFFD := by decide
theorem witness_RandomByteIsMasked : (standingAt 0xFFD#16).pc.toNat ≤ 0xFFD := by decide
theorem witness_LoadIndexSetsI : (standingAt 0xFFD#16).pc.toNat ≤ 0xFFD := by decide
theorem witness_ClearScreenZeroesEveryCell : (standingAt 0xFFD#16).pc.toNat ≤ 0xFFD := by decide

/-- The sum at 0xFFF and one above it, with the parameter on and off. -/
theorem witness_AddIndexWrapsAt4096 : (standingAt 0xFFD#16).pc.toNat ≤ 0xFFD ∧
    (indexing 0xFFE (withRegs [(1, 1)])).I.toNat + ((indexing 0xFFE (withRegs [(1, 1)])).reg 1).toNat = 0xFFF ∧
    (indexing 0xFFE (withRegs [(1, 2)])).I.toNat + ((indexing 0xFFE (withRegs [(1, 2)])).reg 1).toNat = 0x1000 ∧
    State.reset.cfg.quirkFx1eFlag = false ∧ ({ defaultConfig with quirkFx1eFlag := true } : Config).quirkFx1eFlag = true := by
  decide

theorem witness_LoadLoadAddYieldsSum : (14 : Reg) ≠ 15 ∧ (standingAt 0xFF9#16).pc.toNat ≤ 0xFF9 := by decide

theorem witness_SequentialAtTopRaises : 0xFFE ≤ (standingAt 0xFFE#16).pc.toNat ∧
    (.rnd 1 0xFF#8 : Instr) ∈ ([.cls, .ldImm 1 0xFF#8, .addImm 1 0xFF#8, .ldReg 1 2, .or 1 2, .and 1 2, .xor 1 2, .addReg 1 2,
      .sub 1 2, .shr 1 2, .subn 1 2, .shl 1 2, .ldI 0x300#12, .rnd 1 0xFF#8, .ldVxDt 1, .ldDtVx 1, .ldStVx 1,
      .addI 1] : List Instr) ∧
    nextWith (exec (.rnd 1 0xFF#8) (standingAt 0xFFE#16)) (raised .addressRange 0xFFE#16 0xC1FF#16) = true := by decide

theorem witness_LoadFontSetsGlyphAddress :
    ((withRegs [(1, 0xF)] (standingAt 0xFFD#16)).reg 1).toNat ≤ 0xF ∧
    (withRegs [(1, 0xF)] (standingAt 0xFFD#16)).pc.toNat ≤ 0xFFD ∧
    ((withRegs [(1, 0xF)] (standingAt 0xFFE#16)).reg 1).toNat ≤ 0xF ∧
    0xFFE ≤ (withRegs [(1, 0xF)] (standingAt 0xFFE#16)).pc.toNat ∧ 0x10 ≤ ((withRegs [(1, 0x10)]).reg 1).toNat := by decide

theorem witness_StoreDecimalDigits :
    (indexing 0xFFD (standingAt 0xFFD#16)).I.toNat + 2 ≤ 0xFFF ∧ (indexing 0xFFD (standingAt 0xFFD#16)).pc.toNat ≤ 0xFFD ∧
    (indexing 0xFFD (standingAt 0xFFE#16)).I.toNat + 2 ≤ 0xFFF ∧ 0xFFE ≤ (indexing 0xFFD (standingAt 0xFFE#16)).pc.toNat ∧
    0x1000 ≤ (indexing 0xFFE).I.toNat + 2 := by decide

theorem witness_StoreRegisterBlock :
    (indexing 0xFF0 (standingAt 0xFFD#16)).I.toNat + (15 : Reg).val ≤ 0xFFF ∧
    (indexing 0xFF0 (standingAt 0xFFD#16)).pc.toNat ≤ 0xFFD ∧
    (indexing 0xFF0 (standingAt 0xFFE#16)).I.toNat + (15 : Reg).val ≤ 0xFFF ∧
    0xFFE ≤ (indexing 0xFF0 (standingAt 0xFFE#16)).pc.toNat ∧ 0x1000 ≤ (indexing 0xFF1).I.toNat + (15 : Reg).val := by decide

theorem witness_LoadRegisterBlock :
    (indexing 0xFFF (standingAt 0xFFD#16)).I.toNat + (0 : Reg).val ≤ 0xFFF ∧
    (indexing 0xFFF (standingAt 0xFFD#16)).pc.toNat ≤ 0xFFD ∧
    (indexing 0xFFF (standingAt 0xFFE#16)).I.toNat + (0 : Reg).val ≤ 0xFFF ∧
    0xFFE ≤ (indexing 0xFFF (standingAt 0xFFE#16)).pc.toNat ∧ 0x1000 ≤ (indexing 0xFFF).I.toNat + (1 : Reg).val := by decide

theorem witness_StoreThenLoadRoundTrips : (indexing 0xFF0 (standingAt 0xFFB#16)).I.toNat + (15 : Reg).val ≤ 0xFFF ∧
    (indexing 0xFF0 (standingAt 0xFFB#16)).pc.toNat ≤ 0xFFB := by decide

theorem witness_StoreIsSeenByNextFetch : 1 ≤ (1 : Reg).val ∧
    (indexing 0xFFE (standingAt 0xFFC#16)).pc.toNat + 2 + (1 : Reg).val ≤ 0xFFF ∧
    (indexing 0xFFE (standingAt 0xFFC#16)).I = (indexing 0xFFE (standingAt 0xFFC#16)).pc + 2#16 := by decide

/-- The last sprite that fits, and the empty sprite with `I` at the end of memory. -/
theorem witness_DrawFlipsCoveredCells :
    (indexing 0xFFB (standingAt 0xFFD#16)).I.toNat + (0x5#4).toNat ≤ 0x1000 ∧
    (indexing 0xFFB (standingAt 0xFFD#16)).pc.toNat ≤ 0xFFD ∧
    nextWith (exec (.drw 1 2 0x5#4) (indexing 0xFFB (standingAt 0xFFD#16))) (okAt 0xFFF#16) = true ∧
    nextWith (exec (.drw 1 2 0x0#4) (indexing 0xFFF (standingAt 0xFFD#16))) (okAt 0xFFF#16) = true := by decide

theorem witness_DrawOutOfRangeRaises : (0x5#4 : Nibble) ≠ 0#4 ∧ 0x1001 ≤ (indexing 0xFFC).I.toNat + (0x5#4).toNat ∧
    (indexing 0xFFB (standingAt 0xFFE#16)).I.toNat + (0x5#4).toNat ≤ 0x1000 ∧
    0xFFE ≤ (indexing 0xFFB (standingAt 0xFFE#16)).pc.toNat := by decide

/-- The two passes of a sprite: the second state is the first pass's result at another `pc`. -/
theorem witness_DrawingTwiceRestores :
    nextWith (exec (.drw 1 2 0x1#4) (indexing 0x300 (withBytes 0x300 [0xC0]))) (fun t =>
      t.fault == none && t.I == 0x300#16 && t.reg 1 == 0#8 && t.reg 2 == 0#8 &&
      nextWith (exec (.drw 1 2 0x1#4) t) (fun u => u.fault == none && u.reg 15 == 1#8)) = true := by decide

theorem witness_KeySkipsFollowKeyState :
    ((pressing [0xF] (withRegs [(1, 0xF)])).reg 1).toNat = (0xF : Fin 16).val ∧
    (pressing [0xF] (withRegs [(1, 0xF)])).keys[(0xF : Fin 16).val] = true ∧
    (withRegs [(1, 0xF)]).keys[(0xF : Fin 16).val] = false ∧ 0x10 ≤ ((withRegs [(1, 0x10)]).reg 1).toNat ∧
    nextWith (exec (.skp 1) (standingAt 0xFFB#16 (pressing [0xF] (withRegs [(1, 0xF)])))) (okAt 0xFFF#16) = true ∧
    nextWith (exec (.skp 1) (standingAt 0xFFC#16 (pressing [0xF] (withRegs [(1, 0xF)]))))
      (raised .addressRange 0xFFC#16 0xE19E#16) = true ∧
    nextWith (exec (.skp 1) (standingAt 0xFFD#16 (withRegs [(1, 0xF)]))) (okAt 0xFFF#16) = true ∧
    nextWith (exec (.sknp 1) (standingAt 0xFFE#16 (pressing [0xF] (withRegs [(1, 0xF)]))))
      (raised .addressRange 0xFFE#16 0xE1A1#16) = true := by decide

theorem witness_WaitForKeyTakesLowest : (∀ k : Fin 16, State.reset.keys[k.val] = false) ∧
    (pressing [0xF]).keys[(0xF : Fin 16).val] = true ∧
    (∀ j : Fin 16, j < 0xF → (pressing [0xF]).keys[j.val] = false) ∧
    (standingAt 0xFFD#16 (pressing [0xF])).pc.toNat ≤ 0xFFD ∧ 0xFFE ≤ (standingAt 0xFFE#16 (pressing [0xF])).pc.toNat := by
  decide

theorem witness_ReadDelayTimerBeforeTick : (fetching 0xFF07 (standingAt 0xFFD#16)).pc.toNat ≤ 0xFFD ∧
    (fetching 0xFF07 (standingAt 0xFFD#16)).fault = none ∧
    decode (fetching 0xFF07 (standingAt 0xFFD#16)).fetchWord = .known (.ldVxDt 0xF) := by decide

theorem witness_SetDelayTimerThenTick : (fetching 0xFF15 (standingAt 0xFFD#16)).pc.toNat ≤ 0xFFD ∧
    (fetching 0xFF15 (standingAt 0xFFD#16)).fault = none ∧
    decode (fetching 0xFF15 (standingAt 0xFFD#16)).fetchWord = .known (.ldDtVx 0xF) := by decide

theorem witness_SetSoundTimerThenTick : (fetching 0xFF18 (standingAt 0xFFD#16)).pc.toNat ≤ 0xFFD ∧
    (fetching 0xFF18 (standingAt 0xFFD#16)).fault = none ∧
    decode (fetching 0xFF18 (standingAt 0xFFD#16)).fetchWord = .known (.ldStVx 0xF) := by decide

theorem witness_BootLoadsRomImage : defaultConfig.wf = true ∧ (List.replicate 3584 0x00#8).length ≤ 3584 ∧
    3585 ≤ (List.replicate 3585 0x00#8).length := by
  rw [List.length_replicate, List.length_replicate]
  decide

/-- A halted state, and the two lengths at the bound. -/
theorem witness_HostResetBootsFromAnyState : (State.reset.raise .stackOverflow 0x2300#16).fault ≠ none ∧
    (List.replicate 3584 0x00#8).length ≤ 3584 ∧ 3585 ≤ (List.replicate 3585 0x00#8).length := by
  rw [List.length_replicate, List.length_replicate]
  decide

/-- `Reset(rom)` leaves the halted condition (R211). -/
theorem test_reset_leaves_halt : (match HostMove.apply (.reset [0x12, 0x00]) (State.reset.raise .stackOverflow 0x2300#16) with
    | .ok t => t.fault == none && holds t 0x200 [0x12, 0x00] && nextWith (step t) (okAt 0x200#16)
    | .error _ => false) = true := by decide

end Sys2Proof.Tests
end

section
/-! The decoder against the opcode map: a word that decodes to an instruction is the word of that instruction and has a row
(spec/30_encoding.md rules R74 to R77, R82). -/

namespace Sys2Proof

/-! ### A word from its fields -/

theorem formatA_of_fields {w : Word} {f : Nibble} (hf : (fieldFamily w).toNat = f.toNat) :
    formatA f (fieldNNN w) = w := by
  rw [← BitVec.eq_of_toNat_eq hf, ← word_eq_formatA]

theorem formatXI_of_fields {w : Word} {f : Nibble} {nn : Byte} (hf : (fieldFamily w).toNat = f.toNat)
    (hnn : (fieldNN w).toNat = nn.toNat) : formatXI f (fieldX w) nn = w := by
  rw [← BitVec.eq_of_toNat_eq hf, ← BitVec.eq_of_toNat_eq hnn, ← word_eq_formatXI]

theorem formatXY_of_fields {w : Word} {f n : Nibble} (hf : (fieldFamily w).toNat = f.toNat)
    (hn : (fieldN w).toNat = n.toNat) : formatXY f (fieldX w) (fieldY w) n = w := by
  rw [← BitVec.eq_of_toNat_eq hf, ← BitVec.eq_of_toNat_eq hn, ← word_eq_formatXY]

/-! ### The encoder gives the decoded word back, family by family -/

theorem encode_of_decodeFamily0 {w : Word} {i : Instr} (h : decodeFamily0 w = .known i) : encode i = w := by
  unfold decodeFamily0 at h
  split at h
  · next hw => cases h; exact hw.symm
  · split at h
    · next hw => cases h; exact hw.symm
    · cases h

theorem encode_of_decodeFamily8 {w : Word} {i : Instr} (hf : (fieldFamily w).toNat = 0x8)
    (h : decodeFamily8 w = .known i) : encode i = w := by
  unfold decodeFamily8 at h
  split at h <;> cases h
  all_goals
    rename_i hn
    exact formatXY_of_fields hf hn

theorem encode_of_decodeFamilyE {w : Word} {i : Instr} (hf : (fieldFamily w).toNat = 0xE)
    (h : decodeFamilyE w = .known i) : encode i = w := by
  unfold decodeFamilyE at h
  split at h <;> cases h
  all_goals
    rename_i hnn
    exact formatXI_of_fields hf hnn

theorem encode_of_decodeFamilyF {w : Word} {i : Instr} (hf : (fieldFamily w).toNat = 0xF)
    (h : decodeFamilyF w = .known i) : encode i = w := by
  unfold decodeFamilyF at h
  split at h <;> cases h
  all_goals
    rename_i hnn
    exact formatXI_of_fields hf hnn

/-- One bullet for each family, in the decoder's order. -/
theorem encode_of_decode {w : Word} {i : Instr} (h : decode w = .known i) : encode i = w := by
  unfold decode at h
  split at h <;> rename_i hf
  · exact encode_of_decodeFamily0 h
  · cases h; exact formatA_of_fields hf
  · cases h; exact formatA_of_fields hf
  · cases h; exact formatXI_of_fields hf rfl
  · cases h; exact formatXI_of_fields hf rfl
  · split at h
    · next hn => cases h; exact formatXY_of_fields hf (congrArg BitVec.toNat hn)
    · cases h
  · cases h; exact formatXI_of_fields hf rfl
  · cases h; exact formatXI_of_fields hf rfl
  · exact encode_of_decodeFamily8 hf h
  · split at h
    · next hn => cases h; exact formatXY_of_fields hf (congrArg BitVec.toNat hn)
    · cases h
  · cases h; exact formatA_of_fields hf
  · cases h; exact formatA_of_fields hf
  · cases h; exact formatXI_of_fields hf rfl
  · cases h; exact formatXY_of_fields hf rfl
  · exact encode_of_decodeFamilyE hf h
  · exact encode_of_decodeFamilyF hf h
  · cases h

/-! ### The rows (R76, R77) -/

/-- The family `Laws.OpcodeRowOf`, put together. -/
theorem opcodeRowOf : ∀ i : Instr, Laws.OpcodeRowOf.Statement i
  | .cls => Laws.OpcodeRowOf.cls
  | .ret => Laws.OpcodeRowOf.ret
  | .jp nnn => Laws.OpcodeRowOf.jp nnn
  | .call nnn => Laws.OpcodeRowOf.call nnn
  | .seImm x nn => Laws.OpcodeRowOf.seImm x nn
  | .sneImm x nn => Laws.OpcodeRowOf.sneImm x nn
  | .seReg x y => Laws.OpcodeRowOf.seReg x y
  | .ldImm x nn => Laws.OpcodeRowOf.ldImm x nn
  | .addImm x nn => Laws.OpcodeRowOf.addImm x nn
  | .ldReg x y => Laws.OpcodeRowOf.ldReg x y
  | .or x y => Laws.OpcodeRowOf.or x y
  | .and x y => Laws.OpcodeRowOf.and x y
  | .xor x y => Laws.OpcodeRowOf.xor x y
  | .addReg x y => Laws.OpcodeRowOf.addReg x y
  | .sub x y => Laws.OpcodeRowOf.sub x y
  | .shr x y => Laws.OpcodeRowOf.shr x y
  | .subn x y => Laws.OpcodeRowOf.subn x y
  | .shl x y => Laws.OpcodeRowOf.shl x y
  | .sneReg x y => Laws.OpcodeRowOf.sneReg x y
  | .ldI nnn => Laws.OpcodeRowOf.ldI nnn
  | .jpV0 nnn => Laws.OpcodeRowOf.jpV0 nnn
  | .rnd x nn => Laws.OpcodeRowOf.rnd x nn
  | .drw x y n => Laws.OpcodeRowOf.drw x y n
  | .skp x => Laws.OpcodeRowOf.skp x
  | .sknp x => Laws.OpcodeRowOf.sknp x
  | .ldVxDt x => Laws.OpcodeRowOf.ldVxDt x
  | .ldVxK x => Laws.OpcodeRowOf.ldVxK x
  | .ldDtVx x => Laws.OpcodeRowOf.ldDtVx x
  | .ldStVx x => Laws.OpcodeRowOf.ldStVx x
  | .addI x => Laws.OpcodeRowOf.addI x
  | .ldF x => Laws.OpcodeRowOf.ldF x
  | .ldB x => Laws.OpcodeRowOf.ldB x
  | .stRegs x => Laws.OpcodeRowOf.stRegs x
  | .ldRegs x => Laws.OpcodeRowOf.ldRegs x

/-- A word that decodes to an instruction matches the row that bears the instruction's name. -/
theorem exists_row_of_decode {w : Word} {i : Instr} (h : decode w = .known i) :
    ∃ r ∈ opcodeRows, r.mnemonic = i.mnemonic ∧ w &&& r.mask = r.bits := by
  obtain ⟨r, hr, hname, hcovers⟩ := opcodeRowOf i
  rw [encode_of_decode h] at hcovers
  exact ⟨r, hr, hname, beq_iff_eq.mp hcovers⟩

theorem decode_unknown_of_no_row {w : Word} (h : ∀ r ∈ opcodeRows, w &&& r.mask ≠ r.bits) :
    decode w = .unknown w := by
  cases hd : decode w with
  | known i =>
    obtain ⟨r, hr, -, hmatch⟩ := exists_row_of_decode hd
    exact absurd hmatch (h r hr)
  | unknown v => rw [Machine.decode_unknown_eq hd]

end Sys2Proof
end

section
/-! The cycle driver: an unknown word is fatal, and a jump to itself with both timers at 0 changes nothing
(spec/40_cycle_driver.md rules R104 to R106, R110, R113). -/

namespace Sys2Proof.Machine

/-! ### Fetch, tick and jump -/

/-- The fetched word is the two bytes at `pc`, the first in the high half (R54). -/
theorem State.fetchWord_eq_of_bytes {s : State} {w : Word}
    (h : (s.readByte s.pc.toNat).toNat * 256 + (s.readByte (s.pc.toNat + 1)).toNat = w.toNat) : s.fetchWord = w := by
  apply BitVec.eq_of_toNat_eq
  rw [State.fetchWord, wordOfBytes_toNat, h]

/-- A cycle whose instruction did not raise ends with the tick (R100 step 5). -/
theorem afterExec_of_running {t : State} (h : t.fault = none) : afterExec (.next t) = .next t.tick := by
  simp [afterExec, h]

/-- With both timers at 0 the tick only clears the tone (R105, R106). -/
theorem State.tick_of_stopped_timers {s : State} (hDT : s.DT = 0#8) (hST : s.ST = 0#8) :
    s.tick = { s with tone := false } := by
  have htick : tickTimer 0#8 = 0#8 := rfl
  have htone : (0#8 == 1#8) = false := rfl
  simp only [State.tick, hDT, hST, htick, htone]

/-- An address immediate never passes 0xFFF, so `JP` always completes (R104, R120). -/
theorem exec_jp (nnn : Addr) (s : State) : exec (.jp nnn) s = .next (s.advance nnn.toNat) := by
  have hle : nnn.toNat ≤ 0xFFF := Nat.le_of_lt_succ nnn.isLt
  exact congrArg Host.Outcome.next (s.commit_of_le s _ hle)

theorem State.advance_to_pc (s : State) : s.advance s.pc.toNat = { s with status := .ok } := by
  simp [State.advance]

/-! ### The statements -/

/-- Settles O6: a word of no row decodes to `UNKNOWN`, because every instruction's word has a row. -/
theorem unknownWordIsFatal : Obligations.UnknownWordIsFatal := by
  unfold Obligations.UnknownWordIsFatal
  refine ⟨fun s w hrunning hpc hbytes hrows => ?_, by decide, by decide, by decide⟩
  rw [step_runs hrunning hpc, State.fetchWord_eq_of_bytes hbytes, runWord_unknown (decode_unknown_of_no_row hrows),
    State.raise]

/-- Settles O15: the jump commits the `pc` it had, and the tick finds both timers at 0. -/
theorem jumpToSelfIsIdempotent : Obligations.JumpToSelfIsIdempotent := by
  unfold Obligations.JumpToSelfIsIdempotent
  intro s nnn hrunning hpc hdecode hself hDT hST
  have hdone : ({ s with status := .ok } : State).fault = none := hrunning
  rw [step_runs hrunning hpc, runWord_known hdecode, exec_jp, hself, State.advance_to_pc,
    afterExec_of_running hdone, State.tick_of_stopped_timers (s := { s with status := .ok }) hDT hST]

end Sys2Proof.Machine
end

section
/-! Control transfer: a `CALL` pushes its return address and jumps, or raises on a full stack
(spec/41_control_flow.md rule R122). -/

namespace Sys2Proof.Machine

theorem decode_call_word (nnn : Addr) : decode (formatA 0x2#4 nnn) = .known (.call nnn) := by
  simp [decode]

/-- With room on the stack a `CALL` always completes: its target, an address immediate, never passes 0xFFF (R104, R122). -/
theorem exec_call_of_room (nnn : Addr) {s : State} (h : s.sp.val < 16) :
    exec (.call nnn) s = .next (State.advance { s with
      stack := s.stack.set s.sp.val (BitVec.ofNat 16 (s.pc.toNat + 2)) h, sp := ⟨s.sp.val + 1, Nat.succ_lt_succ h⟩ }
      nnn.toNat) := by
  have hle : nnn.toNat ≤ 0xFFF := Nat.le_of_lt_succ nnn.isLt
  simp only [exec, execCall, s.push_room _ h, State.transfer, s.commit_of_le _ _ hle]

/-- A `CALL` on a full stack raises and pushes nothing (R122, R202). -/
theorem exec_call_of_full (nnn : Addr) {s : State} (h : s.sp = 16) :
    exec (.call nnn) s = .next (s.raise .stackOverflow (encode (.call nnn))) := by
  simp only [exec, execCall, s.push_full _ h]

/-- Settles O20: the word decodes by its family and address fields; the stack has room or is full. -/
theorem callPushesReturnAddress : Obligations.CallPushesReturnAddress := by
  unfold Obligations.CallPushesReturnAddress
  exact fun nnn s => ⟨decode_call_word nnn, fun hroom => exec_call_of_room nnn hroom,
    fun hfull => exec_call_of_full nnn (Fin.ext hfull), rfl⟩

end Sys2Proof.Machine
end

section
/-! Registers: the load, add-immediate, copy and logic instructions write `V[x]` and go on to the next instruction
(spec/42_register_alu.md rules R140 to R145). -/

namespace Sys2Proof.Machine

/-! ### The words (R82) -/

theorem decode_ldImm_word (x : Reg) (nn : Byte) : decode (formatXI 0x6#4 (regBits x) nn) = .known (.ldImm x nn) := by
  simp [decode]

theorem decode_addImm_word (x : Reg) (nn : Byte) : decode (formatXI 0x7#4 (regBits x) nn) = .known (.addImm x nn) := by
  simp [decode]

/-- A word of family 0x8 is left to the dispatch on its low nibble (R75). -/
theorem decode_family8_word (x y : Reg) (n : Nibble) : decode (formatXY 0x8#4 (regBits x) (regBits y) n) =
    decodeFamily8 (formatXY 0x8#4 (regBits x) (regBits y) n) := by
  simp [decode]

theorem decode_ldReg_word (x y : Reg) :
    decode (formatXY 0x8#4 (regBits x) (regBits y) 0x0#4) = .known (.ldReg x y) := by
  rw [decode_family8_word]
  simp [decodeFamily8]

theorem decode_or_word (x y : Reg) :
    decode (formatXY 0x8#4 (regBits x) (regBits y) 0x1#4) = .known (.or x y) := by
  rw [decode_family8_word]
  simp [decodeFamily8]

theorem decode_and_word (x y : Reg) :
    decode (formatXY 0x8#4 (regBits x) (regBits y) 0x2#4) = .known (.and x y) := by
  rw [decode_family8_word]
  simp [decodeFamily8]

theorem decode_xor_word (x y : Reg) :
    decode (formatXY 0x8#4 (regBits x) (regBits y) 0x3#4) = .known (.xor x y) := by
  rw [decode_family8_word]
  simp [decodeFamily8]

/-! ### One register written, then the next instruction (R104) -/

/-- Below 0xFFE a sequential commit of one register write stores the register, sets `pc` and `status`, and keeps the rest. -/
theorem State.sequential_setReg (s : State) (w : Word) (x : Reg) (v : Byte) (hpc : s.pc.toNat ≤ 0xFFD) :
    s.sequential w (s.setReg x v) = { s with V := s.V.set x.val v, pc := s.pc + 2#16, status := .ok } := by
  rw [s.sequential_of_le _ w hpc, State.advance, pc_add_ofNat, State.setReg]

/-- An instruction whose only write is `V[x] <- v`, where the next `pc` is in memory. -/
theorem exec_of_sequential_setReg {i : Instr} {s : State} {x : Reg} {v : Byte}
    (hexec : exec i s = .next (s.sequential (encode i) (s.setReg x v))) (hpc : s.pc.toNat ≤ 0xFFD) :
    exec i s = .next { s with V := s.V.set x.val v, pc := s.pc + 2#16, status := .ok } := by
  rw [hexec, s.sequential_setReg _ x v hpc]

/-- The sum of two bytes wraps at 256 (R141). -/
theorem byte_add_eq_ofNat_mod (a b : Byte) : a + b = BitVec.ofNat 8 ((a.toNat + b.toNat) % 256) := by
  apply BitVec.eq_of_toNat_eq
  simp

/-! ### The statements -/

/-- Settles O26: the one register written is `V[x]`, with the byte sum, which is the sum mod 256. -/
theorem addImmediateWrapsSilently : Obligations.AddImmediateWrapsSilently := by
  unfold Obligations.AddImmediateWrapsSilently
  intro x nn s
  refine ⟨decode_addImm_word x nn, fun hpc => ?_⟩
  rw [← byte_add_eq_ofNat_mod]
  exact exec_of_sequential_setReg rfl hpc

/-- Settles O25: the one register written is `V[x]`, with `nn`. -/
theorem loadImmediateSetsRegister : Obligations.LoadImmediateSetsRegister := by
  unfold Obligations.LoadImmediateSetsRegister
  exact fun x nn s => ⟨decode_ldImm_word x nn, exec_of_sequential_setReg rfl⟩

/-- Settles O27: each of the four words decodes by its low nibble, and each instruction writes `V[x]` alone. -/
theorem copyAndLogicSetRegister : Obligations.CopyAndLogicSetRegister := by
  unfold Obligations.CopyAndLogicSetRegister
  intro x y s
  refine ⟨decode_ldReg_word x y, decode_or_word x y, decode_and_word x y, decode_xor_word x y, fun hpc => ?_⟩
  exact ⟨exec_of_sequential_setReg rfl hpc, exec_of_sequential_setReg rfl hpc, exec_of_sequential_setReg rfl hpc,
    exec_of_sequential_setReg rfl hpc⟩

end Sys2Proof.Machine
end

section
/-! Index register: `LD_I` writes `I` and goes on to the next instruction (spec/43_index_memory.md rule R160). -/

namespace Sys2Proof.Machine

theorem decode_ldI_word (nnn : Addr) : decode (formatA 0xA#4 nnn) = .known (.ldI nnn) := by
  simp [decode]

/-- Below 0xFFE a sequential commit of a write of `I` stores `I`, sets `pc` and `status`, and keeps the rest, memory included. -/
theorem State.sequential_setI (s : State) (w : Word) (a : Nat) (hpc : s.pc.toNat ≤ 0xFFD) :
    s.sequential w (s.setI a) = { s with I := BitVec.ofNat 16 a, pc := s.pc + 2#16, status := .ok } := by
  rw [s.sequential_of_le _ w hpc, State.advance, pc_add_ofNat, State.setI]

/-- Settles O34: the word decodes by its family and address fields, and the one element written is `I`, with `nnn`. -/
theorem loadIndexSetsI : Obligations.LoadIndexSetsI := by
  unfold Obligations.LoadIndexSetsI
  intro nnn s
  refine ⟨decode_ldI_word nnn, fun hpc => ?_⟩
  rw [exec, execLdI, s.sequential_setI _ _ hpc]

end Sys2Proof.Machine
end

section
/-! Display: `CLS` clears the frame buffer and goes on to the next instruction (spec/44_display.md rule R170). -/

namespace Sys2Proof.Machine

theorem decode_cls_word : decode 0x00E0#16 = .known .cls := by decide

/-- Below 0xFFE `CLS` completes: it writes `fb` and `redraw`, moves `pc` on, and keeps the rest of the state. -/
theorem exec_cls_of_le (s : State) (hpc : s.pc.toNat ≤ 0xFFD) :
    exec .cls s = .next { s with fb := FrameBuffer.clear, redraw := true, pc := s.pc + 2#16, status := .ok } := by
  rw [exec, execCls, s.sequential_of_le _ _ hpc, State.advance, pc_add_ofNat]

/-- Settles O42: the state after `CLS` holds the cleared frame buffer, whose cells are all 0. -/
theorem clearScreenZeroesEveryCell : Obligations.ClearScreenZeroesEveryCell := by
  unfold Obligations.ClearScreenZeroesEveryCell
  exact ⟨decode_cls_word, fun s hpc => ⟨_, exec_cls_of_le s hpc, rfl, FrameBuffer.pixel_clear⟩⟩

end Sys2Proof.Machine
end

section
/-! Timers: `LD_DT_VX` and `LD_ST_VX` write their timer and go on to the next instruction; the tick of the same cycle then
finds the written value (spec/45_keypad_timers.md rules R184, R185). -/

namespace Sys2Proof.Machine

/-! ### The words (R82) -/

/-- A word of family 0xF is left to the dispatch on its low byte (R75). -/
theorem decode_familyF_word (x : Reg) (nn : Byte) :
    decode (formatXI 0xF#4 (regBits x) nn) = decodeFamilyF (formatXI 0xF#4 (regBits x) nn) := by
  simp [decode]

theorem decode_ldDtVx_word (x : Reg) : decode (formatXI 0xF#4 (regBits x) 0x15#8) = .known (.ldDtVx x) := by
  rw [decode_familyF_word]
  simp [decodeFamilyF]

theorem decode_ldStVx_word (x : Reg) : decode (formatXI 0xF#4 (regBits x) 0x18#8) = .known (.ldStVx x) := by
  rw [decode_familyF_word]
  simp [decodeFamilyF]

/-! ### The tick and the cycle that ends with it (R100, R105, R106) -/

theorem tickTimer_eq_ofNat (t : Byte) : tickTimer t = BitVec.ofNat 8 (t.toNat - 1) := by
  rw [← tickTimer_toNat, BitVec.ofNat_toNat, BitVec.setWidth_eq]

theorem byte_beq_one (t : Byte) : (t == 1#8) = decide (t.toNat = 1) := by
  rw [Bool.eq_iff_iff, beq_iff_eq, decide_eq_true_iff]
  exact BitVec.toNat_inj.symm

/-- The tick in numbers: each timer down by 1 or kept at 0, and a tone exactly from `ST` = 1. -/
theorem State.tick_eq (s : State) : s.tick = { s with
    DT := BitVec.ofNat 8 (s.DT.toNat - 1), ST := BitVec.ofNat 8 (s.ST.toNat - 1), tone := decide (s.ST.toNat = 1) } := by
  rw [State.tick, tickTimer_eq_ofNat, tickTimer_eq_ofNat, byte_beq_one]

/-- The cycle of a fetched instruction that does not raise is the instruction and then the tick. -/
theorem step_of_exec {s t : State} {i : Instr} (hrunning : s.fault = none) (hpc : s.pc.toNat ≤ 0xFFE)
    (hdecode : decode s.fetchWord = .known i) (hexec : exec i s = .next t) (hdone : t.fault = none) :
    step s = .next t.tick := by
  rw [step_runs hrunning hpc, runWord_known hdecode, hexec, afterExec_of_running hdone]

/-! ### One timer written, then the next instruction (R104) -/

/-- Below 0xFFE `LD_DT_VX` completes: it writes `DT`, moves `pc` on, and keeps the rest of the state. -/
theorem exec_ldDtVx_of_le (x : Reg) (s : State) (hpc : s.pc.toNat ≤ 0xFFD) :
    exec (.ldDtVx x) s = .next { s with DT := s.reg x, pc := s.pc + 2#16, status := .ok } := by
  rw [exec, execLdDtVx, s.sequential_of_le _ _ hpc, State.advance, pc_add_ofNat, State.setDT]

/-- Below 0xFFE `LD_ST_VX` completes: it writes `ST`, moves `pc` on, and keeps the rest of the state. -/
theorem exec_ldStVx_of_le (x : Reg) (s : State) (hpc : s.pc.toNat ≤ 0xFFD) :
    exec (.ldStVx x) s = .next { s with ST := s.reg x, pc := s.pc + 2#16, status := .ok } := by
  rw [exec, execLdStVx, s.sequential_of_le _ _ hpc, State.advance, pc_add_ofNat, State.setST]

/-! ### The statements -/

/-- Settles O49: the tick of the same cycle counts down from the `DT` just written. -/
theorem setDelayTimerThenTick : Obligations.SetDelayTimerThenTick := by
  unfold Obligations.SetDelayTimerThenTick
  intro x s
  refine ⟨decode_ldDtVx_word x, fun hpc => ⟨exec_ldDtVx_of_le x s hpc, fun hrunning hdecode => ?_⟩⟩
  rw [step_of_exec hrunning (by omega) hdecode (exec_ldDtVx_of_le x s hpc) hrunning, State.tick_eq]

/-- Settles O50: the tick of the same cycle counts down from the `ST` just written, and takes its tone from it. -/
theorem setSoundTimerThenTick : Obligations.SetSoundTimerThenTick := by
  unfold Obligations.SetSoundTimerThenTick
  intro x s
  refine ⟨decode_ldStVx_word x, fun hpc => ⟨exec_ldStVx_of_le x s hpc, fun hrunning hdecode => ?_⟩⟩
  rw [step_of_exec hrunning (by omega) hdecode (exec_ldStVx_of_le x s hpc) hrunning, State.tick_eq]

end Sys2Proof.Machine
end

section
/-! The decoder and the encoder are inverse, and the decoder is the opcode map
(spec/30_encoding.md rules R74 to R77, R82). -/

namespace Sys2Proof

/-! ### Decoding the word of an instruction (R82) -/

/-- A word of family 0xE is left to the dispatch on its low byte (R75). -/
theorem decode_familyE_word (x : Reg) (nn : Byte) :
    decode (formatXI 0xE#4 (regBits x) nn) = decodeFamilyE (formatXI 0xE#4 (regBits x) nn) := by
  simp [decode]

/-- One case for each instruction: the family field selects the decoder's arm, in families 0x8, 0xE and 0xF the low nibble
or byte then selects the instruction, and the operand fields are read back where the format put them. -/
theorem decode_encode (i : Instr) : decode (encode i) = .known i := by
  cases i with
  | cls => exact Machine.decode_cls_word
  | ret => rfl
  | jp nnn => simp [encode, decode]
  | call nnn => exact Machine.decode_call_word nnn
  | seImm x nn => simp [encode, decode]
  | sneImm x nn => simp [encode, decode]
  | seReg x y => simp [encode, decode]
  | ldImm x nn => exact Machine.decode_ldImm_word x nn
  | addImm x nn => exact Machine.decode_addImm_word x nn
  | ldReg x y => exact Machine.decode_ldReg_word x y
  | or x y => exact Machine.decode_or_word x y
  | and x y => exact Machine.decode_and_word x y
  | xor x y => exact Machine.decode_xor_word x y
  | addReg x y => simp [encode, Machine.decode_family8_word, decodeFamily8]
  | sub x y => simp [encode, Machine.decode_family8_word, decodeFamily8]
  | shr x y => simp [encode, Machine.decode_family8_word, decodeFamily8]
  | subn x y => simp [encode, Machine.decode_family8_word, decodeFamily8]
  | shl x y => simp [encode, Machine.decode_family8_word, decodeFamily8]
  | sneReg x y => simp [encode, decode]
  | ldI nnn => exact Machine.decode_ldI_word nnn
  | jpV0 nnn => simp [encode, decode]
  | rnd x nn => simp [encode, decode]
  | drw x y n => simp [encode, decode]
  | skp x => simp [encode, decode_familyE_word, decodeFamilyE]
  | sknp x => simp [encode, decode_familyE_word, decodeFamilyE]
  | ldVxDt x => simp [encode, Machine.decode_familyF_word, decodeFamilyF]
  | ldVxK x => simp [encode, Machine.decode_familyF_word, decodeFamilyF]
  | ldDtVx x => exact Machine.decode_ldDtVx_word x
  | ldStVx x => exact Machine.decode_ldStVx_word x
  | addI x => simp [encode, Machine.decode_familyF_word, decodeFamilyF]
  | ldF x => simp [encode, Machine.decode_familyF_word, decodeFamilyF]
  | ldB x => simp [encode, Machine.decode_familyF_word, decodeFamilyF]
  | stRegs x => simp [encode, Machine.decode_familyF_word, decodeFamilyF]
  | ldRegs x => simp [encode, Machine.decode_familyF_word, decodeFamilyF]

/-! ### A word from the bits that a row fixes (R76) -/

theorem formatA_of_maskF000 {w : Word} {f : Nibble} (h : w &&& 0xF000#16 = formatA f 0#12) :
    formatA f (fieldNNN w) = w := by
  rw [word_eq_formatA w, formatA_maskF000] at h
  exact formatA_of_fields (by simpa using congrArg (fun v => (fieldFamily v).toNat) h)

theorem formatXI_of_maskF000 {w : Word} {f : Nibble} (h : w &&& 0xF000#16 = formatXI f 0#4 0#8) :
    formatXI f (fieldX w) (fieldNN w) = w := by
  rw [word_eq_formatXI w, formatXI_maskF000] at h
  exact formatXI_of_fields (by simpa using congrArg (fun v => (fieldFamily v).toNat) h) rfl

theorem formatXI_of_maskF0FF {w : Word} {f : Nibble} {nn : Byte} (h : w &&& 0xF0FF#16 = formatXI f 0#4 nn) :
    formatXI f (fieldX w) nn = w := by
  rw [word_eq_formatXI w, formatXI_maskF0FF] at h
  exact formatXI_of_fields (by simpa using congrArg (fun v => (fieldFamily v).toNat) h)
    (by simpa using congrArg (fun v => (fieldNN v).toNat) h)

theorem formatXY_of_maskF00F {w : Word} {f n : Nibble} (h : w &&& 0xF00F#16 = formatXY f 0#4 0#4 n) :
    formatXY f (fieldX w) (fieldY w) n = w := by
  rw [word_eq_formatXY w, formatXY_maskF00F] at h
  exact formatXY_of_fields (by simpa using congrArg (fun v => (fieldFamily v).toNat) h)
    (by simpa using congrArg (fun v => (fieldN v).toNat) h)

theorem formatXY_of_maskF000 {w : Word} {f : Nibble} (h : w &&& 0xF000#16 = formatXY f 0#4 0#4 0#4) :
    formatXY f (fieldX w) (fieldY w) (fieldN w) = w := by
  rw [word_eq_formatXY w, formatXY_maskF000] at h
  exact formatXY_of_fields (by simpa using congrArg (fun v => (fieldFamily v).toNat) h) rfl

theorem word_and_FFFF (w : Word) : w &&& 0xFFFF#16 = w := BitVec.and_allOnes

/-! ### A word that matches a row is the word of an instruction of that name (R76)

The instruction is the row's with the word's own fields; the bits the row fixes and these fields make up the word. -/

theorem exists_encode_of_row0 {r : OpcodeRow} {w : Word} (hr : r ∈ opcodeRows0) (h : w &&& r.mask = r.bits) :
    ∃ i : Instr, encode i = w ∧ i.mnemonic = r.mnemonic := by
  simp only [opcodeRows0, List.mem_cons, List.not_mem_nil, or_false] at hr
  rcases hr with rfl | rfl | rfl | rfl | rfl | rfl | rfl | rfl | rfl | rfl | rfl | rfl
  · exact ⟨.cls, by rw [← word_and_FFFF w]; exact h.symm, rfl⟩
  · exact ⟨.ret, by rw [← word_and_FFFF w]; exact h.symm, rfl⟩
  · exact ⟨.jp (fieldNNN w), formatA_of_maskF000 h, rfl⟩
  · exact ⟨.call (fieldNNN w), formatA_of_maskF000 h, rfl⟩
  · exact ⟨.seImm (regOf (fieldX w)) (fieldNN w), formatXI_of_maskF000 h, rfl⟩
  · exact ⟨.sneImm (regOf (fieldX w)) (fieldNN w), formatXI_of_maskF000 h, rfl⟩
  · exact ⟨.seReg (regOf (fieldX w)) (regOf (fieldY w)), formatXY_of_maskF00F h, rfl⟩
  · exact ⟨.ldImm (regOf (fieldX w)) (fieldNN w), formatXI_of_maskF000 h, rfl⟩
  · exact ⟨.addImm (regOf (fieldX w)) (fieldNN w), formatXI_of_maskF000 h, rfl⟩
  · exact ⟨.ldReg (regOf (fieldX w)) (regOf (fieldY w)), formatXY_of_maskF00F h, rfl⟩
  · exact ⟨.or (regOf (fieldX w)) (regOf (fieldY w)), formatXY_of_maskF00F h, rfl⟩
  · exact ⟨.and (regOf (fieldX w)) (regOf (fieldY w)), formatXY_of_maskF00F h, rfl⟩

theorem exists_encode_of_row1 {r : OpcodeRow} {w : Word} (hr : r ∈ opcodeRows1) (h : w &&& r.mask = r.bits) :
    ∃ i : Instr, encode i = w ∧ i.mnemonic = r.mnemonic := by
  simp only [opcodeRows1, List.mem_cons, List.not_mem_nil, or_false] at hr
  rcases hr with rfl | rfl | rfl | rfl | rfl | rfl | rfl | rfl | rfl | rfl | rfl | rfl
  · exact ⟨.xor (regOf (fieldX w)) (regOf (fieldY w)), formatXY_of_maskF00F h, rfl⟩
  · exact ⟨.addReg (regOf (fieldX w)) (regOf (fieldY w)), formatXY_of_maskF00F h, rfl⟩
  · exact ⟨.sub (regOf (fieldX w)) (regOf (fieldY w)), formatXY_of_maskF00F h, rfl⟩
  · exact ⟨.shr (regOf (fieldX w)) (regOf (fieldY w)), formatXY_of_maskF00F h, rfl⟩
  · exact ⟨.subn (regOf (fieldX w)) (regOf (fieldY w)), formatXY_of_maskF00F h, rfl⟩
  · exact ⟨.shl (regOf (fieldX w)) (regOf (fieldY w)), formatXY_of_maskF00F h, rfl⟩
  · exact ⟨.sneReg (regOf (fieldX w)) (regOf (fieldY w)), formatXY_of_maskF00F h, rfl⟩
  · exact ⟨.ldI (fieldNNN w), formatA_of_maskF000 h, rfl⟩
  · exact ⟨.jpV0 (fieldNNN w), formatA_of_maskF000 h, rfl⟩
  · exact ⟨.rnd (regOf (fieldX w)) (fieldNN w), formatXI_of_maskF000 h, rfl⟩
  · exact ⟨.drw (regOf (fieldX w)) (regOf (fieldY w)) (fieldN w), formatXY_of_maskF000 h, rfl⟩
  · exact ⟨.skp (regOf (fieldX w)), formatXI_of_maskF0FF h, rfl⟩

theorem exists_encode_of_row2 {r : OpcodeRow} {w : Word} (hr : r ∈ opcodeRows2) (h : w &&& r.mask = r.bits) :
    ∃ i : Instr, encode i = w ∧ i.mnemonic = r.mnemonic := by
  simp only [opcodeRows2, List.mem_cons, List.not_mem_nil, or_false] at hr
  rcases hr with rfl | rfl | rfl | rfl | rfl | rfl | rfl | rfl | rfl | rfl
  · exact ⟨.sknp (regOf (fieldX w)), formatXI_of_maskF0FF h, rfl⟩
  · exact ⟨.ldVxDt (regOf (fieldX w)), formatXI_of_maskF0FF h, rfl⟩
  · exact ⟨.ldVxK (regOf (fieldX w)), formatXI_of_maskF0FF h, rfl⟩
  · exact ⟨.ldDtVx (regOf (fieldX w)), formatXI_of_maskF0FF h, rfl⟩
  · exact ⟨.ldStVx (regOf (fieldX w)), formatXI_of_maskF0FF h, rfl⟩
  · exact ⟨.addI (regOf (fieldX w)), formatXI_of_maskF0FF h, rfl⟩
  · exact ⟨.ldF (regOf (fieldX w)), formatXI_of_maskF0FF h, rfl⟩
  · exact ⟨.ldB (regOf (fieldX w)), formatXI_of_maskF0FF h, rfl⟩
  · exact ⟨.stRegs (regOf (fieldX w)), formatXI_of_maskF0FF h, rfl⟩
  · exact ⟨.ldRegs (regOf (fieldX w)), formatXI_of_maskF0FF h, rfl⟩

theorem exists_encode_of_row {r : OpcodeRow} {w : Word} (hr : r ∈ opcodeRows) (h : w &&& r.mask = r.bits) :
    ∃ i : Instr, encode i = w ∧ i.mnemonic = r.mnemonic := by
  rw [opcodeRows, List.mem_append, List.mem_append] at hr
  rcases hr with (hr | hr) | hr
  · exact exists_encode_of_row0 hr h
  · exact exists_encode_of_row1 hr h
  · exact exists_encode_of_row2 hr h

theorem exists_decode_of_row {r : OpcodeRow} {w : Word} (hr : r ∈ opcodeRows) (h : w &&& r.mask = r.bits) :
    ∃ i : Instr, decode w = .known i ∧ i.mnemonic = r.mnemonic := by
  obtain ⟨i, rfl, hname⟩ := exists_encode_of_row hr h
  exact ⟨i, decode_encode i, hname⟩

theorem opcodeRows_mnemonic_nodup : (opcodeRows.map OpcodeRow.mnemonic).Nodup := by decide

/-- A row of the opcode map is known by its name. -/
theorem row_eq_of_mnemonic {r q : OpcodeRow} (hr : r ∈ opcodeRows) (hq : q ∈ opcodeRows)
    (h : r.mnemonic = q.mnemonic) : r = q :=
  List.inj_on_of_nodup_map opcodeRows_mnemonic_nodup hr hq h

/-! ### The statements -/

/-- Settles O2: the fields of the encoded word are the instruction's own. -/
theorem decodeOfEncodeIsInstr : Obligations.DecodeOfEncodeIsInstr := by
  unfold Obligations.DecodeOfEncodeIsInstr
  exact decode_encode

/-- Settles O3, family by family of the decoder. -/
theorem encodeOfDecodeIsWord : Obligations.EncodeOfDecodeIsWord := by
  unfold Obligations.EncodeOfDecodeIsWord
  exact fun _ _ => encode_of_decode

/-- Settles O4: a covered word is the word of an instruction of the row's name, and no two rows share a name. -/
theorem decodeFollowsOpcodeMap : Obligations.DecodeFollowsOpcodeMap := by
  unfold Obligations.DecodeFollowsOpcodeMap
  refine ⟨fun w r hr => ⟨exists_decode_of_row hr, ?_⟩, fun w => decode_unknown_of_no_row, ?_⟩
  · rintro ⟨i, hdecode, hname⟩
    obtain ⟨q, hq, hqname, hcovers⟩ := exists_row_of_decode hdecode
    rwa [row_eq_of_mnemonic hr hq (hname.symm.trans hqname.symm)]
  · intro w r q hr hq hwr hwq
    obtain ⟨i, hi, hir⟩ := exists_decode_of_row hr hwr
    obtain ⟨j, hj, hjq⟩ := exists_decode_of_row hq hwq
    have hij : i = j := Op.known.inj (hi.symm.trans hj)
    exact row_eq_of_mnemonic hr hq (by rw [← hir, ← hjq, hij])

/-- Settles O1: twelve words, each decoded by evaluation. -/
theorem sampleWordsDecode : Obligations.SampleWordsDecode := by
  unfold Obligations.SampleWordsDecode
  decide

end Sys2Proof
end

section
/-! What an instruction writes, said once for all 34: the state with its own writes performed, and what that state shares
with the one before (spec/40_cycle_driver.md rules R100, R103, R104; spec/10_state.md). -/

namespace Sys2Proof.Machine

/-- The state with the instruction's own writes performed, `pc` and `status` aside; the state itself where the instruction's
own check fails or it waits. `exec_written` ties it to `exec`. -/
def State.written (s : State) : Instr → State
  | .cls => { s with fb := FrameBuffer.clear, redraw := true }
  | .ret => (s.pop.map Prod.snd).getD s
  | .call _ => (s.push (BitVec.ofNat 16 (s.pc.toNat + 2))).getD s
  | .jp _ | .jpV0 _ | .seImm _ _ | .sneImm _ _ | .seReg _ _ | .sneReg _ _ | .skp _ | .sknp _ => s
  | .ldImm x nn => s.setReg x nn
  | .addImm x nn => s.setReg x (s.reg x + nn)
  | .ldReg x y => s.setReg x (s.reg y)
  | .or x y => s.setReg x (s.reg x ||| s.reg y)
  | .and x y => s.setReg x (s.reg x &&& s.reg y)
  | .xor x y => s.setReg x (s.reg x ^^^ s.reg y)
  | .addReg x y => s.setFlagThenReg (carryFlag (s.reg x) (s.reg y)) x (s.reg x + s.reg y)
  | .sub x y => s.setFlagThenReg (noBorrowFlag (s.reg x) (s.reg y)) x (s.reg x - s.reg y)
  | .subn x y => s.setFlagThenReg (noBorrowFlag (s.reg y) (s.reg x)) x (s.reg y - s.reg x)
  | .shr x _ => s.setFlagThenReg (lowBitFlag (s.reg x)) x (s.reg x >>> 1)
  | .shl x _ => s.setFlagThenReg (highBitFlag (s.reg x)) x (s.reg x <<< 1)
  | .ldI nnn => s.setI nnn.toNat
  | .rnd x nn => s.drawInto x nn (Config.randByte s.draws)
  | .drw x y n => if spanInMemory s.I.toNat n.toNat then s.draw (s.drawing x y n.toNat) else s
  | .ldVxDt x => s.setReg x s.DT
  | .ldVxK x => (s.lowestKey.map fun k => s.setReg x (BitVec.ofNat 8 k.val)).getD s
  | .ldDtVx x => s.setDT (s.reg x)
  | .ldStVx x => s.setST (s.reg x)
  | .addI x => s.addIndex (s.reg x)
  | .ldF x => ((s.digit x).map fun d => s.setI (s.cfg.fontBase + 5 * d.val)).getD s
  | .ldB x => if spanInMemory s.I.toNat 3 then s.writeBytes s.I.toNat (decimalDigits (s.reg x)) else s
  | .stRegs x => if spanInMemory s.I.toNat (x.val + 1) then s.writeBytes s.I.toNat (s.regBlock x) else s
  | .ldRegs x => if spanInMemory s.I.toNat (x.val + 1) then s.loadRegBlock x else s

/-- What an instruction does: raise a fatal condition, wait without a write, or perform its writes and set the next `pc`. -/
def State.Performs (s : State) (i : Instr) (t : State) : Prop :=
  (∃ code : Fatal, t = s.raise code (encode i)) ∨ (s.written i = s ∧ t = s.hold) ∨
    ∃ next : Nat, next ≤ 0xFFF ∧ t = (s.written i).advance next

theorem State.Performs.raise (s : State) (i : Instr) (code : Fatal) : s.Performs i (s.raise code (encode i)) :=
  .inl ⟨code, rfl⟩

theorem State.Performs.commit {s u : State} {i : Instr} (next : Nat) (hu : s.written i = u) :
    s.Performs i (s.commit (encode i) next u) := by
  rcases s.commit_cases u (encode i) next with ⟨-, h⟩ | ⟨hn, h⟩ <;> rw [h]
  · exact .raise s i _
  · exact .inr (.inr ⟨next, hn, by rw [hu]⟩)

/-- One case for each instruction: a plain commit is that of `written`; where the instruction has a check of its own, both
outcomes of the check are looked at. -/
theorem exec_written {i : Instr} {s t : State} (h : exec i s = .next t) : s.Performs i t := by
  cases i with
  | cls => cases h; exact .commit _ rfl
  | ret =>
    simp only [exec, execRet] at h
    split at h <;> cases h
    · exact .raise _ _ _
    · next hpop => exact .commit _ (by simp [State.written, hpop])
  | jp nnn => cases h; exact .commit _ rfl
  | call nnn =>
    simp only [exec, execCall] at h
    split at h <;> cases h
    · exact .raise _ _ _
    · next hpush => exact .commit _ (by simp [State.written, hpush])
  | seImm x nn => cases h; exact .commit _ rfl
  | sneImm x nn => cases h; exact .commit _ rfl
  | seReg x y => cases h; exact .commit _ rfl
  | ldImm x nn => cases h; exact .commit _ rfl
  | addImm x nn => cases h; exact .commit _ rfl
  | ldReg x y => cases h; exact .commit _ rfl
  | or x y => cases h; exact .commit _ rfl
  | and x y => cases h; exact .commit _ rfl
  | xor x y => cases h; exact .commit _ rfl
  | addReg x y => cases h; exact .commit _ rfl
  | sub x y => cases h; exact .commit _ rfl
  | shr x y => cases h; exact .commit _ rfl
  | subn x y => cases h; exact .commit _ rfl
  | shl x y => cases h; exact .commit _ rfl
  | sneReg x y => cases h; exact .commit _ rfl
  | ldI nnn => cases h; exact .commit _ rfl
  | jpV0 nnn => cases h; exact .commit _ rfl
  | rnd x nn => cases h; exact .commit _ rfl
  | drw x y n =>
    simp only [exec, execDrw] at h
    split at h <;> cases h
    · next hspan => exact .commit _ (if_pos hspan)
    · exact .raise _ _ _
  | skp x =>
    simp only [exec, execSkp] at h
    split at h <;> cases h
    · exact .raise _ _ _
    · exact .commit _ rfl
  | sknp x =>
    simp only [exec, execSknp] at h
    split at h <;> cases h
    · exact .raise _ _ _
    · exact .commit _ rfl
  | ldVxDt x => cases h; exact .commit _ rfl
  | ldVxK x =>
    simp only [exec, execLdVxK] at h
    split at h <;> cases h
    · next hkey => exact .inr (.inl ⟨by simp [State.written, hkey], rfl⟩)
    · next hkey => exact .commit _ (by simp [State.written, hkey])
  | ldDtVx x => cases h; exact .commit _ rfl
  | ldStVx x => cases h; exact .commit _ rfl
  | addI x => cases h; exact .commit _ rfl
  | ldF x =>
    simp only [exec, execLdF] at h
    split at h <;> cases h
    · exact .raise _ _ _
    · next hdigit => exact .commit _ (by simp [State.written, hdigit])
  | ldB x =>
    simp only [exec, execLdB] at h
    split at h <;> cases h
    · next hspan => exact .commit _ (if_pos hspan)
    · exact .raise _ _ _
  | stRegs x =>
    simp only [exec, execStRegs] at h
    split at h <;> cases h
    · next hspan => exact .commit _ (if_pos hspan)
    · exact .raise _ _ _
  | ldRegs x =>
    simp only [exec, execLdRegs] at h
    split at h <;> cases h
    · next hspan => exact .commit _ (if_pos hspan)
    · exact .raise _ _ _

/-- From a running core, an instruction that does not raise leaves its writes, a `pc` in memory or the old one, and a status
other than `FATAL`. -/
theorem exec_completed {i : Instr} {s t : State} (h : exec i s = .next t) (hdone : t.fault = none) :
    ∃ (p : Word) (st : Status), (p = s.pc ∨ p.toNat ≤ 0xFFF) ∧ st ≠ .fatal ∧
      t = { s.written i with pc := p, status := st } := by
  rcases exec_written h with ⟨code, rfl⟩ | ⟨hw, rfl⟩ | ⟨next, hn, rfl⟩
  · cases hdone
  · exact ⟨s.pc, .waiting, .inl rfl, by decide, by rw [hw, State.hold]⟩
  · refine ⟨BitVec.ofNat 16 next, .ok, .inr ?_, by decide, rfl⟩
    rw [BitVec.toNat_ofNat, Nat.mod_eq_of_lt (by omega)]
    exact hn

/-! ### Which elements the writes touch (R36) -/

/-- The shapes that the writes of an instruction can have: which elements each instruction may change. -/
inductive State.Writes (s : State) : Instr → State → Prop
  | registers (i : Instr) (V : Vector Byte 16) : State.Writes s i { s with V := V }
  | random (x : Reg) (nn : Byte) (V : Vector Byte 16) (draws : Nat) :
      State.Writes s (.rnd x nn) { s with V := V, draws := draws }
  | display (i : Instr) (hi : i = .cls ∨ ∃ x y n, i = .drw x y n) (V : Vector Byte 16) (fb : FrameBuffer) :
      State.Writes s i { s with V := V, fb := fb, redraw := true }
  | call (nnn : Addr) (stack : Vector Word 16) (sp : Fin 17) :
      State.Writes s (.call nnn) { s with stack := stack, sp := sp }
  | ret (sp : Fin 17) : State.Writes s .ret { s with sp := sp }
  | index (i : Instr) (hi : (∃ a, i = .ldI a) ∨ ∃ x, i = .addI x ∨ i = .ldF x) (V : Vector Byte 16) (I : Word) :
      State.Writes s i { s with V := V, I := I }
  | delay (x : Reg) (DT : Byte) : State.Writes s (.ldDtVx x) { s with DT := DT }
  | sound (x : Reg) (ST : Byte) : State.Writes s (.ldStVx x) { s with ST := ST }
  | memory (i : Instr) (hi : ∃ x, i = .ldB x ∨ i = .stRegs x) (mem : Memory) : State.Writes s i { s with mem := mem }

theorem State.Writes.nothing (s : State) (i : Instr) : s.Writes i s := .registers i s.V

/-- Every instruction's writes have one of the shapes; where its own check fails it writes nothing. -/
theorem State.writes_written (s : State) (i : Instr) : s.Writes i (s.written i) := by
  cases i with
  | cls => exact .display _ (.inl rfl) s.V _
  | ret =>
    by_cases h : 0 < s.sp.val
    · rw [State.written, s.pop_held h]
      exact .ret _
    · rw [State.written, s.pop_empty (Fin.ext (by simpa using h))]
      exact .nothing s _
  | jp nnn => exact .nothing s _
  | call nnn =>
    by_cases h : s.sp.val < 16
    · rw [State.written, s.push_room _ h]
      exact .call nnn _ _
    · rw [State.written, s.push_full _ (Fin.ext (by simp; omega))]
      exact .nothing s _
  | seImm x nn => exact .nothing s _
  | sneImm x nn => exact .nothing s _
  | seReg x y => exact .nothing s _
  | ldImm x nn => exact .registers _ _
  | addImm x nn => exact .registers _ _
  | ldReg x y => exact .registers _ _
  | or x y => exact .registers _ _
  | and x y => exact .registers _ _
  | xor x y => exact .registers _ _
  | addReg x y => exact .registers _ _
  | sub x y => exact .registers _ _
  | shr x y => exact .registers _ _
  | subn x y => exact .registers _ _
  | shl x y => exact .registers _ _
  | sneReg x y => exact .nothing s _
  | ldI nnn => exact .index _ (.inl ⟨nnn, rfl⟩) s.V _
  | jpV0 nnn => exact .nothing s _
  | rnd x nn => exact .random x nn _ _
  | drw x y n =>
    rw [State.written]
    split
    · exact .display _ (.inr ⟨x, y, n, rfl⟩) _ _
    · exact .nothing s _
  | skp x => exact .nothing s _
  | sknp x => exact .nothing s _
  | ldVxDt x => exact .registers _ _
  | ldVxK x =>
    rw [State.written]
    cases s.lowestKey with
    | none => exact .nothing s _
    | some k => exact .registers _ _
  | ldDtVx x => exact .delay x _
  | ldStVx x => exact .sound x _
  | addI x =>
    rw [State.written, State.addIndex_eq]
    exact .index _ (.inr ⟨x, .inl rfl⟩) _ _
  | ldF x =>
    rw [State.written]
    cases s.digit x with
    | none => exact .nothing s _
    | some d => exact .index _ (.inr ⟨x, .inr rfl⟩) s.V _
  | ldB x =>
    rw [State.written]
    split
    · exact .memory _ ⟨x, .inl rfl⟩ _
    · exact .nothing s _
  | stRegs x =>
    rw [State.written]
    split
    · exact .memory _ ⟨x, .inr rfl⟩ _
    · exact .nothing s _
  | ldRegs x =>
    rw [State.written]
    split
    · exact .registers _ _
    · exact .nothing s _

section Fields

variable {s t : State} {i : Instr}

theorem State.Writes.mem_eq (h : s.Writes i t) : t.mem = s.mem ∨ ∃ x, i = .ldB x ∨ i = .stRegs x := by
  cases h with
  | memory _ hi _ => exact .inr hi
  | _ => exact .inl rfl

theorem State.Writes.fb_eq (h : s.Writes i t) : t.fb = s.fb ∨ i = .cls ∨ ∃ x y n, i = .drw x y n := by
  cases h with
  | display _ hi _ _ => exact .inr hi
  | _ => exact .inl rfl

theorem State.Writes.redraw_eq (h : s.Writes i t) :
    t.redraw = s.redraw ∨ (t.redraw = true ∧ (i = .cls ∨ ∃ x y n, i = .drw x y n)) := by
  cases h with
  | display _ hi _ _ => exact .inr ⟨rfl, hi⟩
  | _ => exact .inl rfl

theorem State.Writes.stack_eq (h : s.Writes i t) : t.stack = s.stack ∨ ∃ a, i = .call a := by
  cases h with
  | call nnn _ _ => exact .inr ⟨nnn, rfl⟩
  | _ => exact .inl rfl

theorem State.Writes.sp_eq (h : s.Writes i t) : t.sp = s.sp ∨ i = .ret ∨ ∃ a, i = .call a := by
  cases h with
  | call nnn _ _ => exact .inr (.inr ⟨nnn, rfl⟩)
  | ret _ => exact .inr (.inl rfl)
  | _ => exact .inl rfl

theorem State.Writes.I_eq (h : s.Writes i t) : t.I = s.I ∨ (∃ a, i = .ldI a) ∨ ∃ x, i = .addI x ∨ i = .ldF x := by
  cases h with
  | index _ hi _ _ => exact .inr hi
  | _ => exact .inl rfl

theorem State.Writes.DT_eq (h : s.Writes i t) : t.DT = s.DT ∨ ∃ x, i = .ldDtVx x := by
  cases h with
  | delay x _ => exact .inr ⟨x, rfl⟩
  | _ => exact .inl rfl

theorem State.Writes.ST_eq (h : s.Writes i t) : t.ST = s.ST ∨ ∃ x, i = .ldStVx x := by
  cases h with
  | sound x _ => exact .inr ⟨x, rfl⟩
  | _ => exact .inl rfl

theorem State.Writes.draws_eq (h : s.Writes i t) : t.draws = s.draws ∨ ∃ x nn, i = .rnd x nn := by
  cases h with
  | random x nn _ _ => exact .inr ⟨x, nn, rfl⟩
  | _ => exact .inl rfl

theorem State.Writes.keeps (h : s.Writes i t) : s.Keeps t := by
  cases h <;> exact ⟨rfl, rfl, rfl, rfl⟩

end Fields

/-! ### The statement -/

/-- Settles O18: a raise and a wait change none of these elements, and the writes are of one of the shapes. -/
theorem storageChangedOnlyByItsInstructions : Obligations.StorageChangedOnlyByItsInstructions := by
  unfold Obligations.StorageChangedOnlyByItsInstructions
  intro i s t h
  rcases exec_written h with ⟨code, rfl⟩ | ⟨-, rfl⟩ | ⟨next, -, rfl⟩
  · exact ⟨.inl rfl, .inl rfl, .inl rfl, .inl rfl, .inl rfl, .inl rfl, .inl rfl, .inl rfl, rfl, rfl⟩
  · exact ⟨.inl rfl, .inl rfl, .inl rfl, .inl rfl, .inl rfl, .inl rfl, .inl rfl, .inl rfl, rfl, rfl⟩
  · have hw := s.writes_written i
    exact ⟨hw.mem_eq, hw.fb_eq, hw.redraw_eq, hw.stack_eq, hw.sp_eq, hw.I_eq, hw.DT_eq, hw.ST_eq, hw.keeps.keys,
      hw.keeps.cfg⟩

end Sys2Proof.Machine
end

section
/-! The cycle driver: a cycle is fetch, `exec` and tick, raises precisely, stays halted, and ticks the timers of every cycle
that completes; cores that stand still (spec/40_cycle_driver.md, spec/60_exceptions.md section 2,
spec/70_reset_and_hazards.md rule R243). -/

namespace Sys2Proof.Machine

/-! ### One cycle -/

theorem afterExec_of_raised {t : State} (h : t.fault ≠ none) : afterExec (.next t) = .next t := by
  simp [afterExec, Option.isSome_iff_ne_none.mpr h]

/-- The cycle of a fetched instruction that raises is the instruction alone (R100 step 5). -/
theorem step_of_raising_exec {s t : State} {i : Instr} (hrunning : s.fault = none) (hpc : s.pc.toNat ≤ 0xFFE)
    (hdecode : decode s.fetchWord = .known i) (hexec : exec i s = .next t) (hraised : t.fault ≠ none) :
    step s = .next t := by
  rw [step_runs hrunning hpc, runWord_known hdecode, hexec, afterExec_of_raised hraised]

/-- The word of two bytes in numbers, big-endian (R54). -/
theorem wordOfBytes_eq_ofNat (a b : Byte) : wordOfBytes a b = BitVec.ofNat 16 (a.toNat * 256 + b.toNat) := by
  rw [← wordOfBytes_toNat, BitVec.ofNat_toNat, BitVec.setWidth_eq]

/-- At 0xFFF the failed fetch records the byte that exists, over 0x00 (R101). -/
theorem State.failedFetchWord_of_le {s : State} (h : s.pc.toNat ≤ 0xFFF) :
    s.failedFetchWord = wordOfBytes (s.readByte s.pc.toNat) 0x00#8 := if_pos h

/-- A cycle of a running core that leaves no record ran a fetched instruction to its end, and ticked. -/
theorem step_completed {s t : State} (hstep : step s = .next t) (hrunning : s.fault = none) (hdone : t.fault = none) :
    ∃ (i : Instr) (u : State), s.pc.toNat ≤ 0xFFE ∧ decode s.fetchWord = .known i ∧ exec i s = .next u ∧
      u.fault = none ∧ t = u.tick := by
  obtain ⟨t', hstep', hcases⟩ := step_cases s
  obtain rfl : t' = t := Host.Outcome.next.inj (hstep'.symm.trans hstep)
  rcases hcases with ⟨hhalted, -⟩ | ⟨-, code, w, rfl, -⟩ | ⟨-, hpc, i, u, hdecode, hexec, hu, rfl⟩
  · simp [hrunning] at hhalted
  · cases hdone
  · exact ⟨i, u, hpc, hdecode, hexec, hu, rfl⟩

/-- A cycle of a running core that leaves a record raised it, with the fetched word, or the byte that exists at 0xFFF over
0x00. -/
theorem step_raised {s t : State} {r : FaultRecord} (hstep : step s = .next t) (hrunning : s.fault = none)
    (hr : t.fault = some r) : ∃ (code : Fatal) (w : Word), t = s.raise code w ∧
      ((s.pc.toNat ≤ 0xFFE ∧ w = s.fetchWord) ∨ (0xFFF ≤ s.pc.toNat ∧ w = s.failedFetchWord)) := by
  obtain ⟨t', hstep', hcases⟩ := step_cases s
  obtain rfl : t' = t := Host.Outcome.next.inj (hstep'.symm.trans hstep)
  rcases hcases with ⟨hhalted, -⟩ | ⟨-, code, w, ht, hw⟩ | ⟨-, -, i, u, -, -, hu, rfl⟩
  · simp [hrunning] at hhalted
  · refine ⟨code, w, ht, ?_⟩
    rcases hw with hfetch | hfailed | ⟨hpc, i, hdecode, rfl⟩
    · exact .inl hfetch
    · exact .inr hfailed
    · exact .inl ⟨hpc, encode_of_decode hdecode⟩
  · simp [hu] at hr

/-! ### Cores that stand still (R243) -/

/-- The state of a core that only ticked, after `n` cycles: both timers `n` lower, or 0, the last cycle's status, and its tone. -/
def State.tickedFor (s : State) (st : Status) (n : Nat) : State :=
  { s with DT := BitVec.ofNat 8 (s.DT.toNat - n), ST := BitVec.ofNat 8 (s.ST.toNat - n), status := st,
           tone := decide (s.ST.toNat = n) }

theorem State.tickedFor_tickedFor (s : State) (st : Status) (n : Nat) :
    (s.tickedFor st 1).tickedFor st (n + 1) = s.tickedFor st (n + 2) := by
  have hbyte : ∀ b : Byte, (BitVec.ofNat 8 (b.toNat - 1)).toNat = b.toNat - 1 := fun b => by
    have := b.isLt
    rw [BitVec.toNat_ofNat, Nat.mod_eq_of_lt (by omega)]
  have hsub : ∀ b : Byte, b.toNat - 1 - (n + 1) = b.toNat - (n + 2) := fun b => by omega
  have htone : (s.ST.toNat - 1 = n + 1) = (s.ST.toNat = n + 2) := propext (by omega)
  simp only [State.tickedFor, hbyte, hsub, htone]

/-- If a cycle only ticks in every state with property `P`, and `P` says nothing of the timers and the outputs, a run of any
length only ticks. -/
theorem run_of_ticking {P : State → Prop} {st : Status} (hstep : ∀ s, P s → step s = .next (s.tickedFor st 1))
    (hkeep : ∀ s, P s → P (s.tickedFor st 1)) (k : Nat) :
    ∀ s, P s → core.run (k + 1) s = .next (s.tickedFor st (k + 1)) := by
  induction k with
  | zero => exact fun s hs => run_succ core 0 (hstep s hs)
  | succ k ih =>
    intro s hs
    rw [run_succ core (k + 1) (hstep s hs), ← s.tickedFor_tickedFor]
    exact ih _ (hkeep s hs)

/-- A core that stands at `LD_VX_K` for register `x` with no key pressed: `State.Waiting` with its register. -/
def State.WaitingAt (x : Reg) (s : State) : Prop :=
  s.fault = none ∧ s.pc.toNat ≤ 0xFFE ∧ decode s.fetchWord = .known (.ldVxK x) ∧ ∀ j : Fin 16, s.keys[j.val] = false

/-- With no key pressed `LD_VX_K` holds (R182). -/
theorem exec_ldVxK_of_no_key (x : Reg) {s : State} (h : ∀ k : Fin 16, s.keys[k.val] = false) :
    exec (.ldVxK x) s = .next s.hold := by
  rw [exec, execLdVxK, s.lowestKey_none_iff.mpr h]

theorem step_of_waitingAt {x : Reg} {s : State} (h : s.WaitingAt x) : step s = .next (s.tickedFor .waiting 1) := by
  obtain ⟨hrunning, hpc, hdecode, hkeys⟩ := h
  rw [step_of_exec hrunning hpc hdecode (exec_ldVxK_of_no_key x hkeys) hrunning, State.tick_eq]
  rfl

theorem decode_jp_word (nnn : Addr) : decode (formatA 0x1#4 nnn) = .known (.jp nnn) := decode_encode (.jp nnn)

/-- `0x1000 + pc` is the word of a jump to `pc` (R76, R243). -/
theorem jump_word_of_pc {p : Word} (h : p.toNat ≤ 0xFFF) :
    0x1000#16 + p = formatA 0x1#4 (BitVec.ofNat 12 p.toNat) := by
  apply BitVec.eq_of_toNat_eq
  rw [formatA_toNat, BitVec.toNat_add, BitVec.toNat_ofNat, BitVec.toNat_ofNat]
  show (0x1000 % 2 ^ 16 + p.toNat) % 2 ^ 16 = 1 * 4096 + p.toNat % 2 ^ 12
  omega

theorem step_of_parked {s : State} (h : s.Parked) : step s = .next (s.tickedFor .ok 1) := by
  obtain ⟨hrunning, hpc, hword⟩ := h
  have hdecode : decode s.fetchWord = .known (.jp (BitVec.ofNat 12 s.pc.toNat)) := by
    rw [hword, jump_word_of_pc (by omega), decode_jp_word]
  have hself : (BitVec.ofNat 12 s.pc.toNat).toNat = s.pc.toNat := by
    rw [BitVec.toNat_ofNat, Nat.mod_eq_of_lt (by omega)]
  have hexec := exec_jp (BitVec.ofNat 12 s.pc.toNat) s
  rw [hself, State.advance_to_pc] at hexec
  rw [step_of_exec hrunning hpc hdecode hexec hrunning, State.tick_eq]
  rfl

/-! ### The statements -/

/-- Settles O5: `exec` answers some next state, and the cycle goes on by whether that state holds a record. -/
theorem stepRunsFetchedInstruction : Obligations.StepRunsFetchedInstruction := by
  unfold Obligations.StepRunsFetchedInstruction
  intro s i hrunning hpc hdecode
  rw [← wordOfBytes_eq_ofNat] at hdecode
  obtain ⟨t, hexec, -⟩ := exec_cases i s
  refine ⟨t, hexec, fun hdone => ?_, step_of_raising_exec hrunning hpc hdecode hexec⟩
  rw [step_of_exec hrunning hpc hdecode hexec hdone, State.tick, tickTimer_eq_ofNat, tickTimer_eq_ofNat]
  rfl

/-- Settles O7: the second byte of the word would lie at 0x1000. -/
theorem fetchPastTopRaises : Obligations.FetchPastTopRaises := by
  unfold Obligations.FetchPastTopRaises
  intro s hrunning hpc
  have htop : s.pc.toNat = 0xFFF := by rw [hpc]; rfl
  rw [step_fetch_fails hrunning (by omega), State.failedFetchWord_of_le (by omega), htop, wordOfBytes_eq_ofNat,
    BitVec.toNat_zero, Nat.add_zero, State.raise, raises]

/-- Settles O8: the cycle of a halted core leaves a halted core that a further cycle leaves as it is. -/
theorem haltedCoreStaysHalted : Obligations.HaltedCoreStaysHalted := by
  unfold Obligations.HaltedCoreStaysHalted
  intro s r k hr
  have hhalted : s.fault.isSome = true := by rw [hr]; rfl
  induction k generalizing s with
  | zero => exact run_succ core 0 (step_halted hhalted)
  | succ k ih =>
    rw [run_succ core (k + 1) (step_halted hhalted)]
    exact ih s.stayHalted hr hhalted

/-- Settles O9: the tick finds the timers as the instruction left them, and only its own load writes a timer. -/
theorem completedCycleTicksTimers : Obligations.CompletedCycleTicksTimers := by
  unfold Obligations.CompletedCycleTicksTimers
  intro s t i hrunning _ hdecode hstep hdone
  obtain ⟨j, u, -, hdecode', hexec, hu, rfl⟩ := step_completed hstep hrunning hdone
  obtain rfl : j = i := Op.known.inj (hdecode'.symm.trans hdecode)
  obtain ⟨p, st, -, -, rfl⟩ := exec_completed hexec hu
  have hwrites := s.writes_written j
  have htone : ∀ b : Byte, (b == 1#8) = true ↔ b.toNat = 1 := fun b => by rw [byte_beq_one, decide_eq_true_iff]
  simp only [State.tick_DT, State.tick_ST, State.tick_tone, tickTimer_toNat, htone]
  refine ⟨fun hj => ?_, fun x hx => ?_, fun hj => ?_, fun x hx => ?_⟩
  · rcases hwrites.DT_eq with h | ⟨x, hx⟩
    · rw [h]
    · exact absurd hx (hj x)
  · subst hx
    rfl
  · rcases hwrites.ST_eq with h | ⟨x, hx⟩
    · rw [h]
      exact ⟨rfl, Iff.rfl⟩
    · exact absurd hx (hj x)
  · subst hx
    exact ⟨rfl, Iff.rfl⟩

/-- Settles O10: only `State.raise` latches a record, and the word of the instruction is the fetched word. -/
theorem raisingCycleIsPrecise : Obligations.RaisingCycleIsPrecise := by
  unfold Obligations.RaisingCycleIsPrecise
  intro s t r hrunning hpc hstep hr
  obtain ⟨code, w, rfl, hw⟩ := step_raised hstep hrunning hr
  obtain rfl : _ = r := Option.some.inj hr
  refine ⟨rfl, ?_, rfl⟩
  rcases hw with ⟨hin, rfl⟩ | ⟨hout, rfl⟩
  · rw [if_pos hin]
    rfl
  · rw [if_neg (by omega)]
    exact State.failedFetchWord_of_le hpc

/-- Settles O11: each of the shapes an instruction and a cycle can have is a next state. -/
theorem everyCycleAnswersNext : Obligations.EveryCycleAnswersNext := by
  unfold Obligations.EveryCycleAnswersNext
  refine ⟨fun i s => ?_, fun s => ?_⟩
  · obtain ⟨t, hexec, -⟩ := exec_cases i s
    exact ⟨t, hexec⟩
  · obtain ⟨t, hstep, -⟩ := step_cases s
    exact ⟨t, hstep⟩

/-- Settles O16: a waiting cycle holds and ticks, and what makes it wait is no timer and no output. -/
theorem waitingCyclesOnlyTick : Obligations.WaitingCyclesOnlyTick := by
  unfold Obligations.WaitingCyclesOnlyTick
  intro s x k hrunning hpc hdecode hkeys
  exact run_of_ticking (P := State.WaitingAt x) (fun _ => step_of_waitingAt) (fun _ h => h) k s
    ⟨hrunning, hpc, hdecode, hkeys⟩

/-- Settles O55: a parked cycle jumps to itself and ticks, and what parks the core is no timer and no output. -/
theorem parkedCoreOnlyTicks : Obligations.ParkedCoreOnlyTicks := by
  unfold Obligations.ParkedCoreOnlyTicks
  exact fun s k => run_of_ticking (P := State.Parked) (fun _ => step_of_parked) (fun _ h => h) k s

end Sys2Proof.Machine
end

section
/-! The invariant: the reset state meets it, every cycle and every move of the host keeps it, so every reachable state meets
it (spec/10_state.md section 9, spec/70_reset_and_hazards.md sections 1 and 3). -/

namespace Sys2Proof.Machine

/-! ### What an instruction's writes keep within bounds (R23, R25, R50) -/

/-- `I` stays in memory: `LD_I` takes an address immediate, `ADD_I` reduces, and `LD_F` points at a glyph of the font, which
ends at or below 0x1FF. -/
theorem State.written_index_le {s : State} (i : Instr) (hcfg : s.cfg.wf = true) (hI : s.I.toNat ≤ 0xFFF) :
    (s.written i).I.toNat ≤ 0xFFF := by
  rcases (s.writes_written i).I_eq with h | ⟨nnn, rfl⟩ | ⟨x, rfl | rfl⟩
  · rwa [h]
  · have := nnn.isLt
    simp only [State.written, State.setI_I, BitVec.toNat_ofNat]
    omega
  · simp only [State.written, State.addIndex_eq, BitVec.toNat_ofNat]
    omega
  · have hbase : s.cfg.fontBase + 79 ≤ 0x1FF := of_decide_eq_true hcfg
    rw [State.written]
    cases s.digit x with
    | none => exact hI
    | some d =>
      have := d.isLt
      simp only [Option.map_some, Option.getD_some, State.setI_I, BitVec.toNat_ofNat]
      exact (Nat.mod_le _ _).trans (by omega)

/-- Return addresses stay at most 0x1000: `CALL` pushes `pc + 2`, and it was fetched at 0xFFE or below. -/
theorem State.written_stack_le {s : State} (i : Instr) (hpc : s.pc.toNat ≤ 0xFFE)
    (hstack : ∀ k : Fin 16, s.stack[k.val].toNat ≤ 0x1000) (k : Fin 16) : (s.written i).stack[k.val].toNat ≤ 0x1000 := by
  rcases (s.writes_written i).stack_eq with h | ⟨nnn, rfl⟩
  · rw [h]
    exact hstack k
  · rw [State.written]
    by_cases hroom : s.sp.val < 16
    · simp only [s.push_room _ hroom, Option.getD_some, Vector.getElem_set]
      split
      · rw [BitVec.toNat_ofNat]
        omega
      · exact hstack k
    · rw [s.push_full _ (Fin.ext (by simp; omega))]
      exact hstack k

theorem decimalDigits_length (v : Byte) : (decimalDigits v).length = 3 := rfl

/-- Stores that pass the range check keep the canonical form. -/
theorem State.writeBytes_wf {s : State} {a : Nat} {bs : List Byte} (hmem : s.mem.wf s.cfg = true)
    (hspan : spanInMemory a bs.length = true) : (s.writeBytes a bs).mem.wf s.cfg = true := by
  rcases (spanInMemory_iff a bs.length).mp hspan with h | h
  · rw [List.length_eq_zero_iff.mp h]
    exact hmem
  · exact Memory.writeBytes_wf s.cfg bs s.mem a hmem h

/-- Memory stays canonical: `LD_B` and `ST_REGS` check their range before they store. -/
theorem State.written_mem_wf {s : State} (i : Instr) (hmem : s.mem.wf s.cfg = true) :
    (s.written i).mem.wf s.cfg = true := by
  rcases (s.writes_written i).mem_eq with h | ⟨x, rfl | rfl⟩
  · rwa [h]
  · rw [State.written]
    split
    · next hspan => exact State.writeBytes_wf hmem hspan
    · exact hmem
  · rw [State.written]
    split
    · next hspan => exact State.writeBytes_wf hmem (by rwa [s.regBlock_length x])
    · exact hmem

/-! ### The invariant and the three ways a cycle ends -/

theorem State.Inv.stayHalted {s : State} (h : s.Inv) (hhalted : s.fault.isSome = true) : s.stayHalted.Inv :=
  { h with fatalIffLatched := by simp [hhalted] }

theorem State.Inv.raise {s : State} (h : s.Inv) (code : Fatal) (w : Word) : (s.raise code w).Inv :=
  { h with
    faultAtPc := by
      rintro r hr
      obtain rfl : _ = r := Option.some.inj hr
      rfl
    fatalIffLatched := by simp }

theorem State.Inv.tick {s : State} (h : s.Inv) : s.tick.Inv := { h with }

/-- An instruction that does not raise keeps the invariant. -/
theorem State.Inv.exec {s t : State} {i : Instr} (h : s.Inv) (hpc : s.pc.toNat ≤ 0xFFE)
    (hexec : exec i s = .next t) (hdone : t.fault = none) : t.Inv := by
  obtain ⟨p, st, hp, hst, rfl⟩ := exec_completed hexec hdone
  obtain ⟨-, -, hcfg, -⟩ := (s.writes_written i).keeps
  exact {
    pcInMemory := by
      rcases hp with rfl | hp
      · exact h.pcInMemory
      · exact hp
    indexInMemory := s.written_index_le i h.parametersWf h.indexInMemory
    stackInRange := s.written_stack_le i hpc h.stackInRange
    memoryCanonical := by
      show (s.written i).mem.wf (s.written i).cfg = true
      rw [hcfg]
      exact s.written_mem_wf i h.memoryCanonical
    parametersWf := by
      show (s.written i).cfg.wf = true
      rw [hcfg]
      exact h.parametersWf
    faultAtPc := by
      intro r hr
      rw [hdone] at hr
      cases hr
    fatalIffLatched := by
      rw [hdone]
      simp [hst] }

theorem State.Inv.step {s t : State} (h : s.Inv) (hstep : step s = .next t) : t.Inv := by
  by_cases hhalted : s.fault.isSome = true
  · obtain rfl := Host.Outcome.next.inj ((step_halted hhalted).symm.trans hstep)
    exact h.stayHalted hhalted
  · have hrunning : s.fault = none := by simpa using hhalted
    cases hfault : t.fault with
    | some r =>
      obtain ⟨code, w, rfl, -⟩ := step_raised hstep hrunning hfault
      exact h.raise code w
    | none =>
      obtain ⟨i, u, hpc, -, hexec, hu, rfl⟩ := step_completed hstep hrunning hfault
      exact (h.exec hpc hexec hu).tick

/-! ### Reset and the host's moves (R230, R238) -/

theorem romWf_iff (rom : List Byte) : romWf rom = true ↔ rom.length ≤ 3584 := decide_eq_true_iff

theorem State.boot_of_le (c : Config) (draws : Nat) {rom : List Byte} (h : rom.length ≤ 3584) :
    State.boot c draws rom = .ok { State.reset with mem := Memory.writeBytes c [] 0x200 rom, draws := draws, cfg := c } :=
  if_pos ((romWf_iff rom).mpr h)

theorem State.boot_of_gt (c : Config) (draws : Nat) {rom : List Byte} (h : 3585 ≤ rom.length) :
    State.boot c draws rom = .error (.tooLong rom.length) :=
  if_neg fun hrom => absurd ((romWf_iff rom).mp hrom) (by omega)

/-- The stack after reset is sixteen zeros (R25). -/
theorem State.reset_stack (k : Fin 16) : State.reset.stack[k.val] = 0#16 := by
  simp [State.reset]

/-- A reset state, with any memory in its canonical form and any parameters within R7, meets the invariant. -/
theorem State.inv_of_reset {c : Config} {m : Memory} (draws : Nat) (hcfg : c.wf = true) (hmem : m.wf c = true) :
    ({ State.reset with mem := m, draws := draws, cfg := c } : State).Inv where
  pcInMemory := (by decide : State.reset.pc.toNat ≤ 0xFFF)
  indexInMemory := (by decide : State.reset.I.toNat ≤ 0xFFF)
  stackInRange k := by
    show State.reset.stack[k.val].toNat ≤ 0x1000
    rw [State.reset_stack]
    decide
  memoryCanonical := hmem
  parametersWf := hcfg
  faultAtPc _ hr := by cases hr
  fatalIffLatched := (by decide : State.reset.status = .fatal ↔ State.reset.fault.isSome = true)

theorem State.boot_inv {c : Config} {draws : Nat} {rom : List Byte} {s : State} (hcfg : c.wf = true)
    (hboot : State.boot c draws rom = .ok s) : s.Inv ∧ s.cfg = c := by
  by_cases hlen : rom.length ≤ 3584
  · rw [State.boot_of_le c draws hlen] at hboot
    obtain rfl := Except.ok.inj hboot
    exact ⟨State.inv_of_reset draws hcfg (Memory.writeBytes_wf c rom [] 0x200 (Memory.wf_nil c) (by omega)), rfl⟩
  · rw [State.boot_of_gt c draws (by omega)] at hboot
    cases hboot

theorem State.Inv.hostMove {m : HostMove} {s t : State} (h : s.Inv) (hmove : m.apply s = .ok t) :
    t.Inv ∧ t.cfg = s.cfg := by
  cases m with
  | reset rom => exact State.boot_inv h.parametersWf hmove
  | press k =>
    obtain rfl := Except.ok.inj hmove
    exact ⟨{ h with }, rfl⟩
  | release k =>
    obtain rfl := Except.ok.inj hmove
    exact ⟨{ h with }, rfl⟩
  | clearRedraw =>
    obtain rfl := Except.ok.inj hmove
    exact ⟨{ h with }, rfl⟩

/-! ### The statements -/

/-- Settles O12: a cycle stays halted, raises, or runs an instruction to its end and ticks. -/
theorem stepKeepsInvariant : Obligations.StepKeepsInvariant := by
  unfold Obligations.StepKeepsInvariant
  exact fun _ _ => State.Inv.step

/-- Settles O13: the reset state has the empty memory and the default parameters. -/
theorem resetMeetsInvariant : Obligations.ResetMeetsInvariant := by
  unfold Obligations.ResetMeetsInvariant
  exact State.inv_of_reset (c := defaultConfig) (m := []) 0 (by decide) (Memory.wf_nil _)

/-- Settles O54: an image that fits is stored below 0x1000, and the other moves touch no element of the invariant. -/
theorem hostMovesKeepInvariant : Obligations.HostMovesKeepInvariant := by
  unfold Obligations.HostMovesKeepInvariant
  exact ⟨fun _ _ _ _ hcfg hboot => (State.boot_inv hcfg hboot).1, fun _ _ _ => State.Inv.hostMove⟩

/-- Settles O14, by induction on the run: it begins with a boot, and goes on by cycles and moves of the host. -/
theorem reachableStatesMeetInvariant : Obligations.ReachableStatesMeetInvariant := by
  unfold Obligations.ReachableStatesMeetInvariant
  intro c s hcfg hreach
  induction hreach with
  | boot draws rom s hboot => exact (State.boot_inv hcfg hboot).1
  | cycle s t _ hstep ih => exact ih.step hstep
  | host m s t _ hmove ih => exact (ih.hostMove hmove).1

end Sys2Proof.Machine
end

section
/-! The instructions with a check of their own, one equation for each outcome of the check, and the results of the sequential
and the skip class (spec/40_cycle_driver.md rule R104; spec/60_exceptions.md rules R202 to R205). -/

namespace Sys2Proof.Machine

/-! ### The classes (R104) -/

/-- A sequential instruction below 0xFFE performs its writes and moves `pc` on by 2. -/
theorem exec_of_sequential_le {i : Instr} {s u : State} (h : exec i s = .next (s.sequential (encode i) u))
    (hpc : s.pc.toNat ≤ 0xFFD) : exec i s = .next { u with pc := s.pc + 2#16, status := .ok } := by
  rw [h, s.sequential_of_le u _ hpc, State.advance, pc_add_ofNat]

/-- A sequential instruction at 0xFFE or above raises and performs no write. -/
theorem exec_of_sequential_gt {i : Instr} {s u : State} (h : exec i s = .next (s.sequential (encode i) u))
    (hpc : 0xFFE ≤ s.pc.toNat) : exec i s = raises s .addressRange (encode i) := by
  rw [h, s.sequential_of_gt u _ hpc]
  rfl

/-- The four outcomes of a skip, by its condition and by whether the next `pc` is in memory. -/
theorem exec_of_skipIf {i : Instr} {s : State} {b : Bool} {cond : Prop} (h : exec i s = .next (s.skipIf (encode i) b))
    (hb : b = true ↔ cond) :
    (cond → s.pc.toNat ≤ 0xFFB → exec i s = .next { s with pc := s.pc + 4#16, status := .ok }) ∧
    (cond → 0xFFC ≤ s.pc.toNat → exec i s = raises s .addressRange (encode i)) ∧
    (¬cond → s.pc.toNat ≤ 0xFFD → exec i s = .next { s with pc := s.pc + 2#16, status := .ok }) ∧
    (¬cond → 0xFFE ≤ s.pc.toNat → exec i s = raises s .addressRange (encode i)) := by
  rw [h, State.skipIf]
  refine ⟨fun hc hpc => ?_, fun hc hpc => ?_, fun hc hpc => ?_, fun hc hpc => ?_⟩
  · rw [if_pos (hb.mpr hc), s.commit_of_le s _ (by omega), State.advance, pc_add_ofNat]
  · rw [if_pos (hb.mpr hc), s.commit_of_gt s _ (by omega)]
    rfl
  · rw [if_neg (mt hb.mp hc), s.commit_of_le s _ (by omega), State.advance, pc_add_ofNat]
  · rw [if_neg (mt hb.mp hc), s.commit_of_gt s _ (by omega)]
    rfl

/-! ### The return stack (R121) -/

theorem exec_ret_of_empty {s : State} (h : s.sp.val = 0) : exec .ret s = raises s .stackUnderflow (encode .ret) := by
  rw [exec, execRet, s.pop_empty (Fin.ext h)]
  rfl

theorem exec_ret_of_held {s : State} (h : 0 < s.sp.val) : exec .ret s = .next (s.transfer (encode .ret)
    (s.stack[s.sp.val - 1]'(by omega)).toNat { s with sp := ⟨s.sp.val - 1, by omega⟩ }) := by
  rw [exec, execRet, s.pop_held h]

/-! ### A register as key or glyph number (R162, R180, R181, R205) -/

section Digit

variable {s : State} {x : Reg} {k : Fin 16}

theorem exec_skp_of_digit (h : (s.reg x).toNat = k.val) :
    exec (.skp x) s = .next (s.skipIf (encode (.skp x)) (s.key k)) := by
  rw [exec, execSkp, (s.digit_some_iff x k).mpr h]

theorem exec_skp_of_gt (h : 0x10 ≤ (s.reg x).toNat) : exec (.skp x) s = raises s .indexRange (encode (.skp x)) := by
  rw [exec, execSkp, (s.digit_none_iff x).mpr h]
  rfl

theorem exec_sknp_of_digit (h : (s.reg x).toNat = k.val) :
    exec (.sknp x) s = .next (s.skipIf (encode (.sknp x)) (!s.key k)) := by
  rw [exec, execSknp, (s.digit_some_iff x k).mpr h]

theorem exec_sknp_of_gt (h : 0x10 ≤ (s.reg x).toNat) : exec (.sknp x) s = raises s .indexRange (encode (.sknp x)) := by
  rw [exec, execSknp, (s.digit_none_iff x).mpr h]
  rfl

theorem exec_ldF_of_le (h : (s.reg x).toNat ≤ 0xF) :
    exec (.ldF x) s = .next (s.sequential (encode (.ldF x)) (s.setI (s.cfg.fontBase + 5 * (s.reg x).toNat))) := by
  rw [exec, execLdF, (s.digit_some_iff x ⟨(s.reg x).toNat, by omega⟩).mpr rfl]

theorem exec_ldF_of_gt (h : 0x10 ≤ (s.reg x).toNat) : exec (.ldF x) s = raises s .indexRange (encode (.ldF x)) := by
  rw [exec, execLdF, (s.digit_none_iff x).mpr h]
  rfl

theorem exec_ldVxK_of_key (h : s.lowestKey = some k) :
    exec (.ldVxK x) s = .next (s.sequential (encode (.ldVxK x)) (s.setReg x (BitVec.ofNat 8 k.val))) := by
  rw [exec, execLdVxK, h]

end Digit

/-! ### Spans of memory (R57, R163 to R165, R173) -/

theorem spanInMemory_of_le {first count : Nat} (h : first + count ≤ 0x1000) : spanInMemory first count = true :=
  (spanInMemory_iff first count).mpr (.inr h)

theorem not_spanInMemory_of_gt {first count : Nat} (hcount : count ≠ 0) (h : 0x1000 < first + count) :
    ¬spanInMemory first count = true := by
  rw [spanInMemory_iff]
  omega

section Span

variable {s : State} {x y : Reg} {n : Nibble}

theorem exec_drw_of_span (h : n = 0#4 ∨ s.I.toNat + n.toNat ≤ 0x1000) : exec (.drw x y n) s =
    .next (s.sequential (encode (.drw x y n)) (s.draw (s.drawing x y n.toNat))) := by
  have hspan : spanInMemory s.I.toNat n.toNat = true :=
    (spanInMemory_iff _ _).mpr (h.imp (fun hn => by rw [hn]; rfl) id)
  rw [exec, execDrw, if_pos hspan]

theorem exec_drw_of_gt (hn : n ≠ 0#4) (h : 0x1000 < s.I.toNat + n.toNat) :
    exec (.drw x y n) s = raises s .addressRange (encode (.drw x y n)) := by
  have hrows : n.toNat ≠ 0 := fun h0 => hn (BitVec.eq_of_toNat_eq h0)
  rw [exec, execDrw, if_neg (not_spanInMemory_of_gt hrows h)]
  rfl

theorem exec_ldB_of_span (h : s.I.toNat + 2 ≤ 0xFFF) : exec (.ldB x) s =
    .next (s.sequential (encode (.ldB x)) (s.writeBytes s.I.toNat (decimalDigits (s.reg x)))) := by
  rw [exec, execLdB, if_pos (spanInMemory_of_le (by omega))]

theorem exec_ldB_of_gt (h : 0x1000 ≤ s.I.toNat + 2) :
    exec (.ldB x) s = raises s .addressRange (encode (.ldB x)) := by
  rw [exec, execLdB, if_neg (not_spanInMemory_of_gt (by decide) (by omega))]
  rfl

theorem exec_stRegs_of_span (h : s.I.toNat + x.val ≤ 0xFFF) : exec (.stRegs x) s =
    .next (s.sequential (encode (.stRegs x)) (s.writeBytes s.I.toNat (s.regBlock x))) := by
  rw [exec, execStRegs, if_pos (spanInMemory_of_le (by omega))]

theorem exec_stRegs_of_gt (h : 0x1000 ≤ s.I.toNat + x.val) :
    exec (.stRegs x) s = raises s .addressRange (encode (.stRegs x)) := by
  rw [exec, execStRegs, if_neg (not_spanInMemory_of_gt (by omega) (by omega))]
  rfl

theorem exec_ldRegs_of_span (h : s.I.toNat + x.val ≤ 0xFFF) : exec (.ldRegs x) s =
    .next (s.sequential (encode (.ldRegs x)) (s.loadRegBlock x)) := by
  rw [exec, execLdRegs, if_pos (spanInMemory_of_le (by omega))]

theorem exec_ldRegs_of_gt (h : 0x1000 ≤ s.I.toNat + x.val) :
    exec (.ldRegs x) s = raises s .addressRange (encode (.ldRegs x)) := by
  rw [exec, execLdRegs, if_neg (not_spanInMemory_of_gt (by omega) (by omega))]
  rfl

end Span

end Sys2Proof.Machine
end

section
/-! The inputs of a cycle: `keys` is read by `SKP`, `SKNP` and `LD_VX_K` alone, the random bytes by `RND` alone
(spec/40_cycle_driver.md section 3). -/

namespace Sys2Proof.Machine

/-- The instructions that read the keypad (R180 to R182). -/
def readsKeys : Instr → Bool
  | .skp _ | .sknp _ | .ldVxK _ => true
  | _ => false

/-- The instruction that takes a random byte (R153). -/
def readsRand : Instr → Bool
  | .rnd _ _ => true
  | _ => false

/-- The state with other inputs: the keypad flags and the counter of random bytes changed by `f` and `g`. -/
def State.mapInputs (f : Vector Bool 16 → Vector Bool 16) (g : Nat → Nat) (s : State) : State :=
  { s with keys := f s.keys, draws := g s.draws }

section Inputs

variable (f : Vector Bool 16 → Vector Bool 16) (g : Nat → Nat)

/-- A commit reads no input, so its outcome differs in the inputs alone. -/
theorem next_commit_mapInputs (s u : State) (w : Word) (n : Nat) :
    (.next ((s.mapInputs f g).commit w n (u.mapInputs f g)) : Host.Outcome State Fault Refusal) =
      .next ((s.commit w n u).mapInputs f g) := by
  rcases s.commit_cases u w n with ⟨hn, h⟩ | ⟨hn, h⟩ <;> rw [h]
  · exact congrArg _ ((s.mapInputs f g).commit_of_gt _ w hn)
  · exact congrArg _ ((s.mapInputs f g).commit_of_le _ w hn)

theorem State.addIndex_mapInputs (s : State) (v : Byte) :
    (s.mapInputs f g).addIndex v = (s.addIndex v).mapInputs f g := by
  rw [State.addIndex_eq, State.addIndex_eq]
  rfl

theorem State.loadRegBlock_mapInputs (s : State) (x : Reg) :
    (s.mapInputs f g).loadRegBlock x = (s.loadRegBlock x).mapInputs f g := by
  simp only [State.loadRegBlock, State.mapInputs, State.readByte, State.reg]

/-- One case for each instruction: the operands, the check and the writes are the same with other inputs, but for the four
instructions that read one, where it is not changed. -/
theorem exec_mapInputs {s t : State} {i : Instr} (hkeys : readsKeys i = true → f = id) (hrand : readsRand i = true → g = id)
    (h : exec i s = .next t) : exec i (s.mapInputs f g) = .next (t.mapInputs f g) := by
  cases i with
  | cls =>
    cases h
    exact next_commit_mapInputs f g s { s with fb := FrameBuffer.clear, redraw := true } _ _
  | ret =>
    rcases Nat.eq_zero_or_pos s.sp.val with hsp | hsp
    · cases (exec_ret_of_empty hsp).symm.trans h
      exact exec_ret_of_empty (s := s.mapInputs f g) hsp
    · cases (exec_ret_of_held hsp).symm.trans h
      exact (exec_ret_of_held (s := s.mapInputs f g) hsp).trans
        (next_commit_mapInputs f g s { s with sp := ⟨s.sp.val - 1, by omega⟩ } _ _)
  | jp nnn => cases h; exact next_commit_mapInputs f g s s _ _
  | call nnn =>
    by_cases hsp : s.sp.val < 16
    · cases (exec_call_of_room nnn hsp).symm.trans h
      exact exec_call_of_room nnn (s := s.mapInputs f g) hsp
    · have hfull : s.sp = 16 := Fin.ext (by simp; omega)
      cases (exec_call_of_full nnn hfull).symm.trans h
      exact exec_call_of_full nnn (s := s.mapInputs f g) hfull
  | seImm x nn => cases h; exact next_commit_mapInputs f g s s _ _
  | sneImm x nn => cases h; exact next_commit_mapInputs f g s s _ _
  | seReg x y => cases h; exact next_commit_mapInputs f g s s _ _
  | ldImm x nn => cases h; exact next_commit_mapInputs f g s (s.setReg _ _) _ _
  | addImm x nn => cases h; exact next_commit_mapInputs f g s (s.setReg _ _) _ _
  | ldReg x y => cases h; exact next_commit_mapInputs f g s (s.setReg _ _) _ _
  | or x y => cases h; exact next_commit_mapInputs f g s (s.setReg _ _) _ _
  | and x y => cases h; exact next_commit_mapInputs f g s (s.setReg _ _) _ _
  | xor x y => cases h; exact next_commit_mapInputs f g s (s.setReg _ _) _ _
  | addReg x y => cases h; exact next_commit_mapInputs f g s (s.setFlagThenReg _ _ _) _ _
  | sub x y => cases h; exact next_commit_mapInputs f g s (s.setFlagThenReg _ _ _) _ _
  | shr x y => cases h; exact next_commit_mapInputs f g s (s.setFlagThenReg _ _ _) _ _
  | subn x y => cases h; exact next_commit_mapInputs f g s (s.setFlagThenReg _ _ _) _ _
  | shl x y => cases h; exact next_commit_mapInputs f g s (s.setFlagThenReg _ _ _) _ _
  | sneReg x y => cases h; exact next_commit_mapInputs f g s s _ _
  | ldI nnn => cases h; exact next_commit_mapInputs f g s (s.setI _) _ _
  | jpV0 nnn => cases h; exact next_commit_mapInputs f g s s _ _
  | rnd x nn =>
    obtain rfl := hrand rfl
    cases h
    exact next_commit_mapInputs f id s (s.drawInto _ _ _) _ _
  | drw x y n =>
    by_cases hspan : n = 0#4 ∨ s.I.toNat + n.toNat ≤ 0x1000
    · cases (exec_drw_of_span hspan).symm.trans h
      exact (exec_drw_of_span (s := s.mapInputs f g) hspan).trans (next_commit_mapInputs f g s (s.draw _) _ _)
    · obtain ⟨hn, hgt⟩ := not_or.mp hspan
      cases (exec_drw_of_gt hn (Nat.lt_of_not_le hgt)).symm.trans h
      exact exec_drw_of_gt (s := s.mapInputs f g) hn (Nat.lt_of_not_le hgt)
  | skp x =>
    obtain rfl := hkeys rfl
    by_cases hx : (s.reg x).toNat < 16
    · cases (exec_skp_of_digit (k := ⟨_, hx⟩) rfl).symm.trans h
      exact (exec_skp_of_digit (s := s.mapInputs id g) (k := ⟨_, hx⟩) rfl).trans (next_commit_mapInputs id g s s _ _)
    · cases (exec_skp_of_gt (Nat.le_of_not_lt hx)).symm.trans h
      exact exec_skp_of_gt (s := s.mapInputs id g) (Nat.le_of_not_lt hx)
  | sknp x =>
    obtain rfl := hkeys rfl
    by_cases hx : (s.reg x).toNat < 16
    · cases (exec_sknp_of_digit (k := ⟨_, hx⟩) rfl).symm.trans h
      exact (exec_sknp_of_digit (s := s.mapInputs id g) (k := ⟨_, hx⟩) rfl).trans (next_commit_mapInputs id g s s _ _)
    · cases (exec_sknp_of_gt (Nat.le_of_not_lt hx)).symm.trans h
      exact exec_sknp_of_gt (s := s.mapInputs id g) (Nat.le_of_not_lt hx)
  | ldVxDt x => cases h; exact next_commit_mapInputs f g s (s.setReg _ _) _ _
  | ldVxK x =>
    obtain rfl := hkeys rfl
    cases hkey : s.lowestKey with
    | none =>
      have hnone := s.lowestKey_none_iff.mp hkey
      cases (exec_ldVxK_of_no_key x hnone).symm.trans h
      exact exec_ldVxK_of_no_key x (s := s.mapInputs id g) hnone
    | some k =>
      cases (exec_ldVxK_of_key hkey).symm.trans h
      exact (exec_ldVxK_of_key (s := s.mapInputs id g) hkey).trans (next_commit_mapInputs id g s (s.setReg _ _) _ _)
  | ldDtVx x => cases h; exact next_commit_mapInputs f g s (s.setDT _) _ _
  | ldStVx x => cases h; exact next_commit_mapInputs f g s (s.setST _) _ _
  | addI x =>
    cases h
    rw [exec, execAddI, State.addIndex_mapInputs]
    exact next_commit_mapInputs f g s _ _ _
  | ldF x =>
    by_cases hx : (s.reg x).toNat ≤ 0xF
    · cases (exec_ldF_of_le hx).symm.trans h
      exact (exec_ldF_of_le (s := s.mapInputs f g) hx).trans (next_commit_mapInputs f g s (s.setI _) _ _)
    · cases (exec_ldF_of_gt (Nat.lt_of_not_le hx)).symm.trans h
      exact exec_ldF_of_gt (s := s.mapInputs f g) (Nat.lt_of_not_le hx)
  | ldB x =>
    by_cases hspan : s.I.toNat + 2 ≤ 0xFFF
    · cases (exec_ldB_of_span hspan).symm.trans h
      exact (exec_ldB_of_span (s := s.mapInputs f g) hspan).trans
        (next_commit_mapInputs f g s (s.writeBytes s.I.toNat (decimalDigits (s.reg x))) _ _)
    · cases (exec_ldB_of_gt (Nat.lt_of_not_le hspan)).symm.trans h
      exact exec_ldB_of_gt (s := s.mapInputs f g) (Nat.lt_of_not_le hspan)
  | stRegs x =>
    by_cases hspan : s.I.toNat + x.val ≤ 0xFFF
    · cases (exec_stRegs_of_span hspan).symm.trans h
      exact (exec_stRegs_of_span (s := s.mapInputs f g) hspan).trans
        (next_commit_mapInputs f g s (s.writeBytes _ _) _ _)
    · cases (exec_stRegs_of_gt (Nat.lt_of_not_le hspan)).symm.trans h
      exact exec_stRegs_of_gt (s := s.mapInputs f g) (Nat.lt_of_not_le hspan)
  | ldRegs x =>
    by_cases hspan : s.I.toNat + x.val ≤ 0xFFF
    · cases (exec_ldRegs_of_span hspan).symm.trans h
      rw [exec_ldRegs_of_span (s := s.mapInputs f g) hspan, State.loadRegBlock_mapInputs]
      exact next_commit_mapInputs f g s _ _ _
    · cases (exec_ldRegs_of_gt (Nat.lt_of_not_le hspan)).symm.trans h
      exact exec_ldRegs_of_gt (s := s.mapInputs f g) (Nat.lt_of_not_le hspan)

/-- A cycle differs in the inputs alone, unless it runs an instruction that reads a changed one: whether the core is halted,
what is fetched, and what is recorded depend on no input. -/
theorem step_mapInputs {s t : State}
    (hreads : s.fault = none → s.pc.toNat ≤ 0xFFE → ∀ i, decode s.fetchWord = .known i →
      (readsKeys i = true → f = id) ∧ (readsRand i = true → g = id))
    (h : step s = .next t) : step (s.mapInputs f g) = .next (t.mapInputs f g) := by
  by_cases hhalted : s.fault.isSome = true
  · cases (step_halted hhalted).symm.trans h
    exact step_halted (s := s.mapInputs f g) hhalted
  · have hrunning : s.fault = none := by simpa using hhalted
    by_cases hpc : s.pc.toNat ≤ 0xFFE
    · have hstep := step_runs (s := s.mapInputs f g) hrunning hpc
      rw [step_runs hrunning hpc] at h
      cases hdecode : decode s.fetchWord with
      | unknown v =>
        cases (runWord_unknown hdecode).symm.trans h
        exact hstep.trans (runWord_unknown (s := s.mapInputs f g) hdecode)
      | known i =>
        obtain ⟨hkeys, hrand⟩ := hreads hrunning hpc i hdecode
        obtain ⟨u, hexec, -⟩ := exec_cases i s
        rw [runWord_known hdecode, hexec] at h
        rw [hstep]
        refine (runWord_known (s := s.mapInputs f g) hdecode).trans ?_
        rw [exec_mapInputs f g hkeys hrand hexec]
        by_cases hu : u.fault = none
        · cases (afterExec_of_running hu).symm.trans h
          exact afterExec_of_running (t := u.mapInputs f g) hu
        · cases (afterExec_of_raised hu).symm.trans h
          exact afterExec_of_raised (t := t.mapInputs f g) hu
    · have htop : 0xFFF ≤ s.pc.toNat := by omega
      cases (step_fetch_fails hrunning htop).symm.trans h
      exact step_fetch_fails (s := s.mapInputs f g) hrunning htop

end Inputs

/-- Only a cycle of `RND` takes a random byte. -/
theorem step_draws_eq {s t : State}
    (hreads : s.fault = none → s.pc.toNat ≤ 0xFFE → ∀ i, decode s.fetchWord = .known i → readsRand i = false)
    (h : step s = .next t) : t.draws = s.draws := by
  obtain ⟨t', hstep, hcases⟩ := step_cases s
  obtain rfl := Host.Outcome.next.inj (hstep.symm.trans h)
  rcases hcases with ⟨-, rfl⟩ | ⟨-, code, w, rfl, -⟩ | ⟨hrunning, hpc, i, u, hdecode, hexec, hu, rfl⟩
  · rfl
  · rfl
  · obtain ⟨p, st, -, -, rfl⟩ := exec_completed hexec hu
    rcases (s.writes_written i).draws_eq with hd | ⟨x, nn, rfl⟩
    · exact hd
    · cases hreads hrunning hpc _ hdecode

theorem readsKeys_cases {i : Instr} (h : readsKeys i = true) : ∃ x, i = .skp x ∨ i = .sknp x ∨ i = .ldVxK x := by
  unfold readsKeys at h
  split at h
  · exact ⟨_, .inl rfl⟩
  · exact ⟨_, .inr (.inl rfl)⟩
  · exact ⟨_, .inr (.inr rfl)⟩
  · cases h

theorem readsRand_cases {i : Instr} (h : readsRand i = true) : ∃ x nn, i = .rnd x nn := by
  unfold readsRand at h
  split at h
  · exact ⟨_, _, rfl⟩
  · cases h

/-- Settles O17: a cycle that reads neither input, or not the changed one, gives the same result with it changed. -/
theorem onlyTheirReadersUseInputs : Obligations.OnlyTheirReadersUseInputs := by
  unfold Obligations.OnlyTheirReadersUseInputs
  refine ⟨fun s t ks hnot h => ?_, fun s t d hnot h => ?_⟩
  · refine step_mapInputs (fun _ => ks) id (fun hrunning hpc i hdecode => ⟨fun hreads => ?_, fun _ => rfl⟩) h
    rcases hnot with hnot | hhalted | htop
    · obtain ⟨x, rfl | rfl | rfl⟩ := readsKeys_cases hreads
      · exact absurd hdecode (hnot x).1
      · exact absurd hdecode (hnot x).2.1
      · exact absurd hdecode (hnot x).2.2
    · exact absurd hrunning hhalted
    · omega
  · have hfree : s.fault = none → s.pc.toNat ≤ 0xFFE → ∀ i, decode s.fetchWord = .known i → readsRand i = false := by
      intro hrunning hpc i hdecode
      rw [Bool.eq_false_iff]
      intro hreads
      rcases hnot with hnot | hhalted | htop
      · obtain ⟨x, nn, rfl⟩ := readsRand_cases hreads
        exact hnot x nn hdecode
      · exact hhalted hrunning
      · omega
    refine ⟨step_draws_eq hfree h, step_mapInputs id (fun _ => d) (fun hrunning hpc i hdecode => ⟨fun _ => rfl, ?_⟩) h⟩
    rw [hfree hrunning hpc i hdecode]
    exact fun hreads => by cases hreads

end Sys2Proof.Machine
end

section
/-! Control transfer and registers: jumps, `RET`, the skips, the instructions that write a flag, `RND`, and what the
sequential class does at the top of memory (spec/41_control_flow.md, spec/42_register_alu.md). -/

namespace Sys2Proof.Machine

/-! ### Bytes in numbers (R146 to R151) -/

/-- The difference of two bytes wraps at 256. -/
theorem byte_sub_eq_ofNat_mod (a b : Byte) : a - b = BitVec.ofNat 8 ((256 + a.toNat - b.toNat) % 256) := by
  apply BitVec.eq_of_toNat_eq
  have := b.isLt
  rw [BitVec.toNat_sub, BitVec.toNat_ofNat]
  omega

theorem byte_shr_eq_ofNat (a : Byte) : a >>> 1 = BitVec.ofNat 8 (a.toNat / 2) := by
  apply BitVec.eq_of_toNat_eq
  have := a.isLt
  rw [BitVec.toNat_ushiftRight, BitVec.toNat_ofNat, Nat.shiftRight_eq_div_pow]
  omega

theorem byte_shl_eq_ofNat (a : Byte) : a <<< 1 = BitVec.ofNat 8 (a.toNat * 2 % 256) := by
  apply BitVec.eq_of_toNat_eq
  rw [BitVec.toNat_shiftLeft, BitVec.toNat_ofNat, Nat.shiftLeft_eq]
  omega

theorem lowBitFlag_eq_ofNat (a : Byte) : lowBitFlag a = BitVec.ofNat 8 (a.toNat % 2) := by
  rw [lowBitFlag, BitVec.getLsbD, Nat.testBit_zero, flagOf]
  rcases Nat.mod_two_eq_zero_or_one a.toNat with h | h <;> rw [h] <;> rfl

theorem highBitFlag_eq_ofNat (a : Byte) : highBitFlag a = BitVec.ofNat 8 (a.toNat / 128) := by
  have hlt := a.isLt
  have hbit : a.getLsbD 7 = decide (a.toNat / 128 % 2 = 1) := Nat.testBit_eq_decide_div_mod_eq
  rw [highBitFlag, hbit, flagOf]
  have h : a.toNat / 128 = 0 ∨ a.toNat / 128 = 1 := by omega
  rcases h with h | h <;> rw [h] <;> rfl

theorem flagOf_decide (p : Prop) [Decidable p] : flagOf (decide p) = if p then 1#8 else 0#8 := by
  by_cases h : p
  · rw [decide_eq_true h, if_pos h]
    rfl
  · rw [decide_eq_false h, if_neg h]
    rfl

/-- Below 0xFFE an instruction that writes a flag and `V[x]` stores the flag first (R152). -/
theorem exec_of_sequential_flag {i : Instr} {s : State} {x : Reg} {flag v : Byte}
    (hexec : exec i s = .next (s.sequential (encode i) (s.setFlagThenReg flag x v))) (hpc : s.pc.toNat ≤ 0xFFD) :
    exec i s = .next { s with V := (s.V.set 15 flag).set x.val v, pc := s.pc + 2#16, status := .ok } :=
  exec_of_sequential_le hexec hpc

/-! ### The words (R82) and the transfers (R104) -/

theorem decode_jpV0_word (nnn : Addr) : decode (formatA 0xB#4 nnn) = .known (.jpV0 nnn) := decode_encode (.jpV0 nnn)

theorem exec_jpV0_of_le {nnn : Addr} {s : State} (h : nnn.toNat + (s.reg 0).toNat ≤ 0xFFF) :
    exec (.jpV0 nnn) s = .next (s.advance (nnn.toNat + (s.reg 0).toNat)) :=
  congrArg Host.Outcome.next (s.commit_of_le s _ h)

theorem exec_jpV0_of_gt {nnn : Addr} {s : State} (h : 0x1000 ≤ nnn.toNat + (s.reg 0).toNat) :
    exec (.jpV0 nnn) s = raises s .addressRange (encode (.jpV0 nnn)) :=
  congrArg Host.Outcome.next (s.commit_of_gt s _ h)

/-- Below the top `pc + 2` does not wrap. -/
theorem pc_add_two_toNat {p : Word} (h : p.toNat ≤ 0xFFD) : (p + 2#16).toNat = p.toNat + 2 := by
  rw [← pc_add_ofNat, BitVec.toNat_ofNat, Nat.mod_eq_of_lt (by omega)]

/-- A `RET` whose popped entry is an address of memory (R121). -/
theorem exec_ret_of_le {s : State} (k : Fin 16) (hsp : s.sp.val = k.val + 1) (ha : s.stack[k.val].toNat ≤ 0xFFF) :
    exec .ret s = .next { s with pc := s.stack[k.val], sp := k.castSucc, status := .ok } := by
  have hk : s.sp.val - 1 = k.val := by omega
  rw [exec_ret_of_held (by omega), State.transfer]
  simp only [hk]
  rw [s.commit_of_le _ _ ha, State.advance, BitVec.ofNat_toNat, BitVec.setWidth_eq]
  rfl

/-- A `RET` whose popped entry is above 0xFFF raises and pops nothing (R121, R204). -/
theorem exec_ret_of_gt {s : State} (k : Fin 16) (hsp : s.sp.val = k.val + 1) (ha : 0x1000 ≤ s.stack[k.val].toNat) :
    exec .ret s = raises s .addressRange (encode .ret) := by
  have hk : s.sp.val - 1 = k.val := by omega
  rw [exec_ret_of_held (by omega), State.transfer]
  simp only [hk]
  rw [s.commit_of_gt _ _ ha]
  rfl

/-! ### The statements on control transfer -/

/-- Settles O19: an address immediate never passes 0xFFF. -/
theorem jumpSetsPc : Obligations.JumpSetsPc := by
  unfold Obligations.JumpSetsPc
  exact fun nnn s => ⟨decode_jp_word nnn, exec_jp nnn s⟩

/-- Settles O21: the stack is empty, or its newest entry is in memory or above. -/
theorem returnPopsIntoPc : Obligations.ReturnPopsIntoPc := by
  unfold Obligations.ReturnPopsIntoPc
  refine ⟨decode_encode .ret, fun s => exec_ret_of_empty, ?_⟩
  rintro s k a hsp rfl
  exact ⟨exec_ret_of_le k hsp, exec_ret_of_gt k hsp⟩

/-- Settles O22: the target is the sum as a number, in memory or above. -/
theorem jumpV0AddsRegisterZero : Obligations.JumpV0AddsRegisterZero := by
  unfold Obligations.JumpV0AddsRegisterZero
  exact fun nnn s => ⟨decode_jpV0_word nnn, exec_jpV0_of_le, exec_jpV0_of_gt⟩

/-- Settles O23: each of the four is the skip of its comparison. -/
theorem compareSkipsAdvancePc : Obligations.CompareSkipsAdvancePc := by
  unfold Obligations.CompareSkipsAdvancePc
  rintro x y nn s i cond (⟨rfl, hcond⟩ | ⟨rfl, hcond⟩ | ⟨rfl, hcond⟩ | ⟨rfl, hcond⟩)
  · exact exec_of_skipIf rfl (beq_iff_eq.trans hcond.symm)
  · exact exec_of_skipIf rfl (bne_iff_ne.trans hcond.symm)
  · exact exec_of_skipIf rfl (beq_iff_eq.trans hcond.symm)
  · exact exec_of_skipIf rfl (bne_iff_ne.trans hcond.symm)

/-- Settles O24: the entry that `RET` pops is the one that `CALL` pushed, `pc + 2`, and it is in memory. -/
theorem callThenReturnResumes : Obligations.CallThenReturnResumes := by
  unfold Obligations.CallThenReturnResumes
  intro nnn s hpc hroom
  have hnnn := nnn.isLt
  refine ⟨_, exec_call_of_room nnn hroom, ?_, ?_⟩
  · rw [State.advance_pc, BitVec.toNat_ofNat, Nat.mod_eq_of_lt (by omega)]
  · rw [pc_add_ofNat]
    have htop : (s.stack.set s.sp.val (s.pc + 2#16) hroom)[s.sp.val] = s.pc + 2#16 := Vector.getElem_set_self hroom
    have hle : (s.pc + 2#16).toNat ≤ 0xFFF := by
      rw [pc_add_two_toNat hpc]
      omega
    refine (exec_ret_of_le ⟨s.sp.val, hroom⟩ rfl (by simpa [htop] using hle)).trans ?_
    simp only [State.advance, htop]
    rfl

/-- Settles O33: each of the listed instructions is a sequential commit, and its next `pc` is above 0xFFF. -/
theorem sequentialAtTopRaises : Obligations.SequentialAtTopRaises := by
  unfold Obligations.SequentialAtTopRaises
  intro x y nn nnn s i hpc hi
  simp only [List.mem_cons, List.not_mem_nil, or_false] at hi
  rcases hi with rfl | rfl | rfl | rfl | rfl | rfl | rfl | rfl | rfl | rfl | rfl | rfl | rfl | rfl | rfl | rfl | rfl | rfl <;>
    exact exec_of_sequential_gt rfl hpc

/-! ### The statements on registers -/

/-- Settles O28: the carry flag is 1 exactly above 255, and the byte sum is the sum mod 256. -/
theorem addRegisterWritesCarryThenSum : Obligations.AddRegisterWritesCarryThenSum := by
  unfold Obligations.AddRegisterWritesCarryThenSum
  intro x y s hpc
  rw [← flagOf_decide, ← byte_add_eq_ofNat_mod]
  exact exec_of_sequential_flag rfl hpc

/-- Settles O29: the flag compares minuend and subtrahend, and the byte difference is the difference mod 256. -/
theorem subtractWritesNoBorrowThenDifference : Obligations.SubtractWritesNoBorrowThenDifference := by
  unfold Obligations.SubtractWritesNoBorrowThenDifference
  intro x y s hpc
  rw [← flagOf_decide, ← byte_sub_eq_ofNat_mod, ← flagOf_decide, ← byte_sub_eq_ofNat_mod]
  exact ⟨exec_of_sequential_flag rfl hpc, exec_of_sequential_flag rfl hpc⟩

/-- Settles O30: bit 0 is the remainder by 2, bit 7 the quotient by 128. -/
theorem shiftsWriteOutgoingBitThenResult : Obligations.ShiftsWriteOutgoingBitThenResult := by
  unfold Obligations.ShiftsWriteOutgoingBitThenResult
  intro x y s hpc
  rw [← lowBitFlag_eq_ofNat, ← byte_shr_eq_ofNat, ← highBitFlag_eq_ofNat, ← byte_shl_eq_ofNat]
  exact ⟨exec_of_sequential_flag rfl hpc, exec_of_sequential_flag rfl hpc⟩

/-- Settles O31: `RND` reads the byte of its draw and counts it. -/
theorem randomByteIsMasked : Obligations.RandomByteIsMasked := by
  unfold Obligations.RandomByteIsMasked
  intro x nn s hpc
  refine ⟨_, rfl, exec_of_sequential_le (u := s.drawInto x nn (Config.randByte s.draws)) rfl hpc,
    fun hnn => ?_, fun hnn => ?_⟩
  · rw [hnn, BitVec.and_zero]
  · rw [hnn, byte_and_FF]

/-- The registers after `LD_IMM` below 0xFFE, one by one (R140). -/
theorem exec_ldImm_reg (x : Reg) (nn : Byte) {s : State} (hpc : s.pc.toNat ≤ 0xFFD) :
    ∃ t : State, exec (.ldImm x nn) s = .next t ∧ t.pc = s.pc + 2#16 ∧
      ∀ z : Reg, t.reg z = if z = x then nn else s.reg z :=
  ⟨_, exec_of_sequential_le (u := s.setReg x nn) rfl hpc, rfl, fun z => s.reg_setReg x z nn⟩

/-- The registers after `ADD_REG` below 0xFFE, one by one: the sum over the carry over the old value (R146, R152). -/
theorem exec_addReg_reg (x y : Reg) {s : State} (hpc : s.pc.toNat ≤ 0xFFD) :
    ∃ t : State, exec (.addReg x y) s = .next t ∧ t.pc = s.pc + 2#16 ∧
      ∀ z : Reg, t.reg z = if z = x then s.reg x + s.reg y
        else if z = 15 then carryFlag (s.reg x) (s.reg y) else s.reg z :=
  ⟨_, exec_of_sequential_le (u := s.setFlagThenReg (carryFlag (s.reg x) (s.reg y)) x (s.reg x + s.reg y)) rfl hpc, rfl,
    fun z => ((s.setReg flagReg _).reg_setReg x z _).trans (by rw [s.reg_setReg flagReg z])⟩

theorem carryFlag_eq_one_iff (a b : Byte) : carryFlag a b = 1#8 ↔ a.toNat + b.toNat > 255 := by
  rw [carryFlag, flagOf_decide]
  split <;> simp [*]

theorem carryFlag_eq_zero_iff (a b : Byte) : carryFlag a b = 0#8 ↔ a.toNat + b.toNat ≤ 255 := by
  rw [carryFlag, flagOf_decide, ← Nat.not_lt]
  split <;> simp [*]

/-- Settles O32: the addition finds `a` and `b` in two different registers, and its flag is not overwritten by the sum. -/
theorem loadLoadAddYieldsSum : Obligations.LoadLoadAddYieldsSum := by
  unfold Obligations.LoadLoadAddYieldsSum
  intro x y a b s hxy hx15 hpc
  obtain ⟨t, hloada, hpct, ht⟩ := exec_ldImm_reg x a (s := s) (by omega)
  have hpct' : t.pc.toNat = s.pc.toNat + 2 := by rw [hpct, pc_add_two_toNat (by omega)]
  obtain ⟨u, hloadb, hpcu, hu⟩ := exec_ldImm_reg y b (s := t) (by omega)
  have hpcu' : u.pc.toNat = s.pc.toNat + 4 := by rw [hpcu, pc_add_two_toNat (by omega), hpct']
  obtain ⟨v, hadd, hpcv, hv⟩ := exec_addReg_reg x y (s := u) (by omega)
  have hux : u.reg x = a := by rw [hu, if_neg hxy, ht, if_pos rfl]
  have huy : u.reg y = b := by rw [hu, if_pos rfl]
  have hsum : v.reg x = a + b := by rw [hv, if_pos rfl, hux, huy]
  have hflag : v.reg 15 = carryFlag a b := by rw [hv, if_neg hx15.symm, if_pos rfl, hux, huy]
  refine ⟨t, u, v, hloada, hloadb, hadd, ?_, ?_, ?_, ?_⟩
  · rw [hsum, BitVec.toNat_add]
  · rw [hflag, carryFlag_eq_one_iff]
  · rw [hflag, carryFlag_eq_zero_iff]
  · rw [hpcv, hpcu, hpct, BitVec.add_assoc, BitVec.add_assoc]
    rfl

end Sys2Proof.Machine
end

section
/-! Index register and memory: `ADD_I`, `LD_F`, and the three instructions that move bytes between registers and memory
(spec/43_index_memory.md rules R161 to R165, spec/20_memory.md section 4). -/

namespace Sys2Proof.Machine

/-- `reg` looks at the registers only. -/
theorem State.reg_congr {s t : State} (hV : t.V = s.V) (x : Reg) : t.reg x = s.reg x := by
  rw [State.reg, State.reg, hV]

/-! ### Bytes after the stores -/

theorem decimalDigits_get (v : Byte) (k : Nat) (hk : k < (decimalDigits v).length) :
    ((decimalDigits v)[k]).toNat =
      if k = 0 then v.toNat / 100 else if k = 1 then v.toNat / 10 % 10 else v.toNat % 10 := by
  have hv := v.isLt
  have hcases : k = 0 ∨ k = 1 ∨ k = 2 := by
    rw [decimalDigits_length] at hk
    omega
  rcases hcases with rfl | rfl | rfl <;> exact Nat.mod_eq_of_lt (by omega)

/-- What a byte reads as after the digits of `v` are stored at `a` (R163). -/
theorem State.readByte_writeDigits (s : State) (a b : Nat) (v : Byte) :
    ((s.writeBytes a (decimalDigits v)).readByte b).toNat =
      if b = a then v.toNat / 100 else if b = a + 1 then v.toNat / 10 % 10 else if b = a + 2 then v.toNat % 10
      else (s.readByte b).toNat := by
  rw [State.readByte_writeBytes]
  split
  · next hin =>
    rw [decimalDigits_length] at hin
    rw [decimalDigits_get]
    have hcases : b = a ∨ b = a + 1 ∨ b = a + 2 := by omega
    rcases hcases with rfl | rfl | rfl <;> simp
  · next hout =>
    rw [decimalDigits_length] at hout
    rw [if_neg (by omega), if_neg (by omega), if_neg (by omega)]

/-- A byte of the block after `V[0]` to `V[x]` are stored at `a` (R164). -/
theorem State.readByte_writeRegBlock (s : State) (a : Nat) {x k : Reg} (hk : k ≤ x) :
    (s.writeBytes a (s.regBlock x)).readByte (a + k.val) = s.reg k := by
  have hkx : k.val ≤ x.val := hk
  rw [State.readByte_writeBytes, dif_pos ⟨by omega, by rw [s.regBlock_length]; omega⟩, s.regBlock_get _ _ _ (by omega)]
  simp [State.reg]

/-- A byte beside the block keeps its value (R164). -/
theorem State.readByte_writeRegBlock_outside (s : State) {a b : Nat} {x : Reg} (h : b < a ∨ a + x.val < b) :
    (s.writeBytes a (s.regBlock x)).readByte b = s.readByte b := by
  rw [State.readByte_writeBytes, dif_neg]
  rw [s.regBlock_length]
  omega

/-! ### The three transfers below 0xFFE -/

section Transfer

variable {s : State} (x : Reg)

/-- `LD_B` below 0xFFE with its three bytes in memory. -/
theorem exec_ldB_of_le (hI : s.I.toNat + 2 ≤ 0xFFF) (hpc : s.pc.toNat ≤ 0xFFD) : ∃ t : State,
    exec (.ldB x) s = .next t ∧ t = { s with mem := t.mem, pc := s.pc + 2#16, status := .ok } ∧
      ∀ a, t.readByte a = (s.writeBytes s.I.toNat (decimalDigits (s.reg x))).readByte a :=
  ⟨_, exec_of_sequential_le (exec_ldB_of_span hI) hpc, rfl, fun a => State.readByte_congr rfl rfl a⟩

/-- `ST_REGS` below 0xFFE with its block in memory. -/
theorem exec_stRegs_of_le (hI : s.I.toNat + x.val ≤ 0xFFF) (hpc : s.pc.toNat ≤ 0xFFD) : ∃ t : State,
    exec (.stRegs x) s = .next t ∧ t = { s with mem := t.mem, pc := s.pc + 2#16, status := .ok } ∧
      (∀ k : Reg, k ≤ x → t.readByte (s.I.toNat + k.val) = s.reg k) ∧
      (∀ a : Nat, a < s.I.toNat ∨ s.I.toNat + x.val < a → t.readByte a = s.readByte a) := by
  refine ⟨_, exec_of_sequential_le (exec_stRegs_of_span hI) hpc, rfl, fun k hk => ?_, fun a ha => ?_⟩
  · exact (State.readByte_congr rfl rfl _).trans (s.readByte_writeRegBlock s.I.toNat hk)
  · exact (State.readByte_congr rfl rfl a).trans (s.readByte_writeRegBlock_outside ha)

/-- `LD_REGS` below 0xFFE with its block in memory. -/
theorem exec_ldRegs_of_le (hI : s.I.toNat + x.val ≤ 0xFFF) (hpc : s.pc.toNat ≤ 0xFFD) : ∃ t : State,
    exec (.ldRegs x) s = .next t ∧ t = { s with V := t.V, pc := s.pc + 2#16, status := .ok } ∧
      (∀ k : Reg, k ≤ x → t.reg k = s.readByte (s.I.toNat + k.val)) ∧ (∀ k : Reg, x < k → t.reg k = s.reg k) := by
  have hreg : ∀ k, ((s.loadRegBlock x).advance (s.pc.toNat + 2)).reg k = (s.loadRegBlock x).reg k :=
    State.reg_congr (State.advance_V _ _)
  refine ⟨(s.loadRegBlock x).advance (s.pc.toNat + 2), ?_, ?_, fun k hk => ?_, fun k hk => ?_⟩
  · rw [exec_ldRegs_of_span hI, s.sequential_of_le _ _ hpc]
  · simp only [State.advance, pc_add_ofNat, State.loadRegBlock]
  · rw [hreg, s.loadRegBlock_reg, if_pos hk]
  · rw [hreg, s.loadRegBlock_reg, if_neg (not_le_of_gt hk)]

end Transfer

/-! ### The statements -/

/-- Settles O35: the writes of `ADD_I` are those of `State.addIndex`. -/
theorem addIndexWrapsAt4096 : Obligations.AddIndexWrapsAt4096 := by
  unfold Obligations.AddIndexWrapsAt4096
  intro x s hpc
  rw [exec_of_sequential_le (i := .addI x) (u := s.addIndex (s.reg x)) rfl hpc, State.addIndex_eq]

/-- Settles O36: `V[x]` is a glyph number or not, and with one `LD_F` is a sequential write of `I`. -/
theorem loadFontSetsGlyphAddress : Obligations.LoadFontSetsGlyphAddress := by
  unfold Obligations.LoadFontSetsGlyphAddress
  exact fun x s => ⟨fun hx hpc => exec_of_sequential_le (exec_ldF_of_le hx) hpc,
    fun hx hpc => exec_of_sequential_gt (exec_ldF_of_le hx) hpc, exec_ldF_of_gt⟩

/-- Settles O37: with its bytes in memory `LD_B` stores the digits of `V[x]`. -/
theorem storeDecimalDigits : Obligations.StoreDecimalDigits := by
  unfold Obligations.StoreDecimalDigits
  refine fun x s => ⟨fun hI hpc => ?_, fun hI hpc => exec_of_sequential_gt (exec_ldB_of_span hI) hpc, exec_ldB_of_gt⟩
  obtain ⟨t, hexec, hframe, hread⟩ := exec_ldB_of_le x hI hpc
  refine ⟨t, hexec, hframe, fun a => ?_⟩
  rw [hread, State.readByte_writeDigits]

/-- Settles O38: with its block in memory `ST_REGS` stores it. -/
theorem storeRegisterBlock : Obligations.StoreRegisterBlock := by
  unfold Obligations.StoreRegisterBlock
  exact fun x s => ⟨exec_stRegs_of_le x, fun hI hpc => exec_of_sequential_gt (exec_stRegs_of_span hI) hpc,
    exec_stRegs_of_gt⟩

/-- Settles O39: with its block in memory `LD_REGS` loads it. -/
theorem loadRegisterBlock : Obligations.LoadRegisterBlock := by
  unfold Obligations.LoadRegisterBlock
  exact fun x s => ⟨exec_ldRegs_of_le x, fun hI hpc => exec_of_sequential_gt (exec_ldRegs_of_span hI) hpc,
    exec_ldRegs_of_gt⟩

/-- Settles O40: the bytes that are loaded are the bytes that were stored, at the same `I`. -/
theorem storeThenLoadRoundTrips : Obligations.StoreThenLoadRoundTrips := by
  unfold Obligations.StoreThenLoadRoundTrips
  intro x s clobbered hI hpc
  obtain ⟨t, hstore, hframe, hstored, -⟩ := exec_stRegs_of_le x hI (by omega)
  have hIt : t.I = s.I := by rw [hframe]
  have hpct : t.pc.toNat = s.pc.toNat + 2 := by rw [hframe]; exact pc_add_two_toNat (by omega)
  obtain ⟨u, hload, hframe', hloaded, hkept⟩ := exec_ldRegs_of_le x (s := { t with V := clobbered })
    (by show t.I.toNat + x.val ≤ 0xFFF; rw [hIt]; exact hI) (by show t.pc.toNat ≤ 0xFFD; omega)
  refine ⟨t, u, hstore, hload, fun k hk => ?_, hkept, by rw [hframe']; exact hIt⟩
  rw [hloaded k hk]
  show t.readByte (t.I.toNat + k.val) = s.reg k
  rw [hIt, hstored k hk]

/-- Settles O41: the next fetch reads the first two bytes of the stored block. -/
theorem storeIsSeenByNextFetch : Obligations.StoreIsSeenByNextFetch := by
  unfold Obligations.StoreIsSeenByNextFetch
  intro x s hx hpc hI
  have hnext : (s.pc + 2#16).toNat = s.pc.toNat + 2 := pc_add_two_toNat (by omega)
  obtain ⟨t, hexec, hframe, hstored, -⟩ := exec_stRegs_of_le x (s := s) (by rw [hI, hnext]; omega) (by omega)
  have hpct : t.pc = s.I := by rw [hframe, hI]
  refine ⟨t, hexec, hpct.trans hI, ?_⟩
  rw [State.fetchWord, wordOfBytes_toNat, hpct, ← hstored 0 (Fin.zero_le x), ← hstored 1 hx]
  rfl

end Sys2Proof.Machine
end

section
/-! Keypad and timers: the key skips, the wait for a key, and reading the delay timer
(spec/45_keypad_timers.md rules R180 to R183). -/

namespace Sys2Proof.Machine

/-- Below 0xFFE `LD_VX_DT` completes: it writes `V[x]`, moves `pc` on, and keeps the rest of the state. -/
theorem exec_ldVxDt_of_le (x : Reg) (s : State) (hpc : s.pc.toNat ≤ 0xFFD) :
    exec (.ldVxDt x) s = .next { s with V := s.V.set x.val s.DT, pc := s.pc + 2#16, status := .ok } :=
  exec_of_sequential_setReg rfl hpc

/-- Settles O46: `V[x]` is a key number or not, and with one the instruction is the skip on that key. -/
theorem keySkipsFollowKeyState : Obligations.KeySkipsFollowKeyState := by
  unfold Obligations.KeySkipsFollowKeyState
  rintro x k s i pressed (⟨rfl, rfl⟩ | ⟨rfl, rfl⟩)
  · exact ⟨fun hx => exec_of_skipIf (exec_skp_of_digit hx) Iff.rfl, exec_skp_of_gt⟩
  · exact ⟨fun hx => exec_of_skipIf (exec_sknp_of_digit hx) (Bool.not_eq_true' _).to_iff, exec_sknp_of_gt⟩

/-- Settles O47: no key is pressed, or there is a lowest pressed one. -/
theorem waitForKeyTakesLowest : Obligations.WaitForKeyTakesLowest := by
  unfold Obligations.WaitForKeyTakesLowest
  refine fun x s => ⟨exec_ldVxK_of_no_key x, fun k hk hlow => ?_⟩
  have hexec := exec_ldVxK_of_key (x := x) ((s.lowestKey_some_iff k).mpr ⟨hk, hlow⟩)
  exact ⟨exec_of_sequential_setReg hexec, exec_of_sequential_gt hexec⟩

/-- Settles O48: the tick of the same cycle follows the read. -/
theorem readDelayTimerBeforeTick : Obligations.ReadDelayTimerBeforeTick := by
  unfold Obligations.ReadDelayTimerBeforeTick
  intro x s hpc
  refine ⟨exec_ldVxDt_of_le x s hpc, fun hrunning hdecode => ?_⟩
  rw [step_of_exec hrunning (by omega) hdecode (exec_ldVxDt_of_le x s hpc) hrunning, State.tick_eq]

end Sys2Proof.Machine
end

section
/-! Reset and the host: the state after reset, the image a boot loads, and the moves of the host
(spec/70_reset_and_hazards.md sections 1 and 3, spec/10_state.md section 10). -/

namespace Sys2Proof.Machine

/-! ### Memory without a listed cell (R40) -/

theorem Memory.unlisted_font (c : Config) (k : Fin 80) : Memory.unlisted c (c.fontBase + k.val) = c.font[k.val] := by
  have hk := k.isLt
  rw [Memory.unlisted, dif_pos ⟨by omega, by omega⟩]
  simp

theorem Memory.unlisted_outside (c : Config) {a : Nat} (h : a < c.fontBase ∨ c.fontBase + 80 ≤ a) :
    Memory.unlisted c a = 0x00#8 := by
  rw [Memory.unlisted, dif_neg (by omega)]

/-! ### The booted state (R230, R232) -/

/-- `Reset(rom)` with an image that fits: the reset state but for memory, the parameters and the counter of draws; what
memory reads as is the image at 0x200, and beside it what an unlisted address reads as. -/
theorem State.boot_reads (c : Config) (draws : Nat) {rom : List Byte} (hlen : rom.length ≤ 3584) :
    ∃ s : State, State.boot c draws rom = .ok s ∧ s = { State.reset with mem := s.mem, draws := draws, cfg := c } ∧
      (∀ (k : Nat) (h : k < rom.length), s.readByte (0x200 + k) = rom[k]) ∧
      ∀ a : Nat, (a < 0x200 ∨ 0x200 + rom.length ≤ a) → s.readByte a = Memory.unlisted c a := by
  refine ⟨_, State.boot_of_le c draws hlen, rfl, fun k h => ?_, fun a ha => ?_⟩
  · rw [State.readByte, Memory.read_writeBytes, dif_pos ⟨by omega, by omega⟩]
    simp
  · exact Memory.read_writeBytes_outside c [] 0x200 a rom ha

/-! ### The statements -/

/-- Settles O51: memory with nothing listed reads as the font and 0x00, and every other element is a replicated 0. -/
theorem resetLeavesSpecifiedState : Obligations.ResetLeavesSpecifiedState := by
  unfold Obligations.ResetLeavesSpecifiedState
  refine ⟨rfl, rfl, rfl, rfl, rfl, rfl, rfl, fun x => ?_, State.reset_stack, fun k => ?_, fun px py => ?_,
    Memory.unlisted_font defaultConfig, fun a ha => Memory.unlisted_outside defaultConfig ha⟩
  · simp [State.reg, State.reset]
  · simp [State.reset]
  · exact FrameBuffer.pixel_clear px py

/-- Settles O52: the font ends at or below 0x1FF, so the image does not cover it. -/
theorem bootLoadsRomImage : Obligations.BootLoadsRomImage := by
  unfold Obligations.BootLoadsRomImage
  intro c draws rom hcfg
  have hbase : c.fontBase + 79 ≤ 0x1FF := of_decide_eq_true hcfg
  refine ⟨fun hlen => ?_, State.boot_of_gt c draws⟩
  obtain ⟨s, hboot, hframe, himage, hrest⟩ := State.boot_reads c draws hlen
  refine ⟨s, hboot, hframe, himage, fun k => ?_, fun a hfont hout => ?_⟩
  · have hk := k.isLt
    rw [hrest _ (.inl (by omega)), Memory.unlisted_font]
  · rw [hrest a hout, Memory.unlisted_outside c hfont]

/-- Settles O53: each move writes one flag. -/
theorem hostMovesTouchOnlyTheirFlag : Obligations.HostMovesTouchOnlyTheirFlag := by
  unfold Obligations.HostMovesTouchOnlyTheirFlag
  have hset : ∀ (v : Vector Bool 16) (k j : Fin 16) (b : Bool), j ≠ k → (v.set k.val b)[j.val] = v[j.val] :=
    fun v k j b hjk => Vector.getElem_set_ne _ _ fun h => hjk (Fin.ext h.symm)
  intro s k
  refine ⟨⟨s.setKey k true, rfl, rfl, ?_, fun j => hset s.keys k j true⟩,
    ⟨s.setKey k false, rfl, rfl, ?_, fun j => hset s.keys k j false⟩, rfl⟩
  · exact Vector.getElem_set_self k.isLt
  · exact Vector.getElem_set_self k.isLt

/-- Settles O56: the move is a boot with the parameters of the state, whatever else the state holds. -/
theorem hostResetBootsFromAnyState : Obligations.HostResetBootsFromAnyState := by
  unfold Obligations.HostResetBootsFromAnyState
  refine fun s rom => ⟨rfl, fun hlen => ?_, State.boot_of_gt s.cfg s.draws⟩
  obtain ⟨t, hboot, hframe, himage, -⟩ := State.boot_reads s.cfg s.draws hlen
  exact ⟨t, hboot, hframe, by rw [hframe]; rfl, himage⟩

end Sys2Proof.Machine
end

section
/-! Display: `DRW` flips the cells its sprite covers, and drawing twice restores the buffer
(spec/44_display.md rules R171 to R173). -/

namespace Sys2Proof.Machine

/-- The sprite of `DRW` has a 1 on cell (`px`, `py`) (R171). -/
def State.covers (s : State) (x y : Reg) (n : Nibble) (px : Fin 64) (py : Fin 32) : Bool :=
  spriteCovers ((s.reg x).toNat % 64) ((s.reg y).toNat % 32) (s.spriteBytes n.toNat) px py

/-- Where the sprite has a 1, in numbers: bit 7 is leftmost, and row `r` is the byte at `I + r` (R171, R172). -/
theorem State.covers_eq (s : State) (x y : Reg) (n : Nibble) (px : Fin 64) (py : Fin 32) :
    s.covers x y n px py =
      (decide ((px.val + 64 - (s.reg x).toNat % 64) % 64 < 8) &&
        decide ((py.val + 32 - (s.reg y).toNat % 32) % 32 < n.toNat) &&
        (s.readByte (s.I.toNat + (py.val + 32 - (s.reg y).toNat % 32) % 32)).getLsbD
          (7 - (px.val + 64 - (s.reg x).toNat % 64) % 64)) := by
  rw [State.covers, spriteCovers, s.spriteBytes_get, spriteRow, Nat.mod_mod]
  by_cases hrow : (py.val + 32 - (s.reg y).toNat % 32) % 32 < n.toNat
  · rw [if_pos hrow, decide_eq_true hrow, Bool.and_true]
    show rowCovers 8 _ _ _ = _
    rw [rowCovers, spriteColumn, Nat.mod_mod]
  · rw [if_neg hrow, decide_eq_false hrow, Bool.and_false, Bool.false_and]

/-- Which cells a sprite covers depends on its two registers, memory and `I` alone. -/
theorem State.covers_congr {s t : State} {x y : Reg} (hmem : t.mem = s.mem) (hcfg : t.cfg = s.cfg) (hI : t.I = s.I)
    (hx : t.reg x = s.reg x) (hy : t.reg y = s.reg y) (n : Nibble) (px : Fin 64) (py : Fin 32) :
    t.covers x y n px py = s.covers x y n px py := by
  rw [State.covers_eq, State.covers_eq, hx, hy, hI, State.readByte_congr hmem hcfg]

section Drawing

variable (s : State) (x y : Reg) (n : Nibble)

theorem State.spriteBytes_length_le : (s.spriteBytes n.toNat).length ≤ 32 := by
  have := n.isLt
  rw [s.spriteBytes_length]
  omega

/-- A cell after the drawing: flipped exactly where the sprite has a 1 (R171). -/
theorem State.drawing_pixel (px : Fin 64) (py : Fin 32) :
    (s.drawing x y n.toNat).1.pixel px py = (s.fb.pixel px py ^^ s.covers x y n px py) :=
  Drawing.rows_pixel _ _ _ _ (s.spriteBytes_length_le n) px py

/-- There is a collision exactly if some cell goes from 1 to 0 (R171). -/
theorem State.drawing_collision : (s.drawing x y n.toNat).2 = true ↔
    ∃ (px : Fin 64) (py : Fin 32), s.fb.pixel px py = true ∧ (s.drawing x y n.toNat).1.pixel px py = false := by
  have hrows : (s.drawing x y n.toNat).2 = true ↔
      false = true ∨ ∃ (px : Fin 64) (py : Fin 32), s.covers x y n px py = true ∧ s.fb.pixel px py = true :=
    Drawing.rows_collision _ _ _ _ (s.spriteBytes_length_le n)
  rw [hrows, or_iff_right Bool.false_ne_true]
  refine exists_congr fun px => exists_congr fun py => ?_
  rw [s.drawing_pixel, and_comm]
  refine and_congr_right fun hlit => ?_
  rw [hlit, Bool.true_xor, Bool.not_eq_false']

end Drawing

/-- A `DRW` that does not raise leaves the drawing in `fb` and the collision in `V[0xF]` (R171). -/
theorem exec_drw_completed {x y : Reg} {n : Nibble} {s t : State} (h : exec (.drw x y n) s = .next t)
    (hdone : t.fault = none) :
    t.fb = (s.drawing x y n.toNat).1 ∧ t.reg 15 = collisionFlag (s.drawing x y n.toNat).2 := by
  by_cases hspan : n = 0#4 ∨ s.I.toNat + n.toNat ≤ 0x1000
  · rcases Nat.lt_or_ge s.pc.toNat 0xFFE with hpc | hpc
    · cases (exec_of_sequential_le (exec_drw_of_span hspan) (Nat.le_of_lt_succ hpc)).symm.trans h
      exact ⟨rfl, Vector.getElem_set_self (by decide)⟩
    · cases (exec_of_sequential_gt (exec_drw_of_span hspan) hpc).symm.trans h
      cases hdone
  · obtain ⟨hn, hgt⟩ := not_or.mp hspan
    cases (exec_drw_of_gt hn (Nat.lt_of_not_le hgt)).symm.trans h
    cases hdone

theorem collisionFlag_eq_one_iff (b : Bool) : collisionFlag b = 1#8 ↔ b = true := by
  cases b <;> decide

theorem collisionFlag_eq_zero_of_not {b : Bool} (h : ¬b = true) : collisionFlag b = 0#8 := by
  rw [Bool.eq_false_iff.mpr h]
  rfl

/-! ### The statements -/

/-- Settles O43: the frame buffer is the drawing's, and the flag is its collision. -/
theorem drawFlipsCoveredCells : Obligations.DrawFlipsCoveredCells := by
  unfold Obligations.DrawFlipsCoveredCells
  intro x y n s hspan hpc
  have hcollision := s.drawing_collision x y n
  refine ⟨(s.drawing x y n.toNat).1, collisionFlag (s.drawing x y n.toNat).2,
    exec_of_sequential_le (exec_drw_of_span hspan) hpc, fun px py => ?_, fun hlost => ?_, fun hkept => ?_⟩
  · rw [s.drawing_pixel, s.covers_eq]
  · exact (collisionFlag_eq_one_iff _).mpr (hcollision.mpr hlost)
  · exact collisionFlag_eq_zero_of_not (mt hcollision.mp hkept)

/-- Settles O44: the sprite leaves memory, or it does not and the next `pc` does. -/
theorem drawOutOfRangeRaises : Obligations.DrawOutOfRangeRaises := by
  unfold Obligations.DrawOutOfRangeRaises
  exact fun x y n s => ⟨exec_drw_of_gt, fun hspan hpc => exec_of_sequential_gt (exec_drw_of_span hspan) hpc⟩

/-- Settles O45: the second sprite covers the same cells, so it flips each of them back. -/
theorem drawingTwiceRestores : Obligations.DrawingTwiceRestores := by
  unfold Obligations.DrawingTwiceRestores
  intro x y n s s' t u hfirst ht hfb hmem hcfg hI hx hy hsecond hu
  obtain ⟨htfb, -⟩ := exec_drw_completed hfirst ht
  obtain ⟨hufb, huflag⟩ := exec_drw_completed hsecond hu
  have hrestored : u.fb = s.fb := FrameBuffer.ext_pixel fun px py => by
    rw [hufb, s'.drawing_pixel, hfb, htfb, s.drawing_pixel, State.covers_congr hmem hcfg hI hx hy, Bool.xor_assoc,
      Bool.xor_self, Bool.xor_false]
  refine ⟨hrestored, ?_⟩
  rw [huflag, collisionFlag_eq_one_iff, s'.drawing_collision, ← hufb, hrestored, hfb]
  exact exists_congr fun px => exists_congr fun py => and_comm

end Sys2Proof.Machine
end
